-- ==== Sys2Proof/Word.lean ====
section
/-!
DEFINITION. The word of the machine: one memory cell, a signed integer (R7, R9, R22).

The spec's cells are signed integers on which arithmetic is exact and which are cut into DECIMAL digits; nothing in
the machine shifts, masks or numbers the bits of one (R8, R41), so a cell is an `Int`, not a bit vector. The width `W`
is a parameter (`Sys2Proof.Width` of Config.lean); the members of the spec's set `Cell` are those that
`Sys2Proof.Width.inCell` accepts (notes/assumptions/3.md).
-/
namespace Sys2Proof

/-- One cell value: the type of every memory cell, of `pc`, of the input and of the outputs (R7, R25). The name is used where
cells are DATA (a memory, an image, a log); where a number is compared or computed with, signatures say `Int`, which is the
same type and the one arithmetic tactics look for. -/
abbrev Cell := Int

end Sys2Proof
end

