-- ==== Sys2Proof/Config.lean ====
section
/-!
DEFINITION. The implementation parameters of R7 (`CELL_BITS`, `ISA_LEVEL`, `STRICT_SINGLE_OUTPUT`): what is fixed before
`LOAD` and never changed by a run (R32).

The spec leaves all three OPEN (92_eei_decisions.md D1, D4, D5), so the model fixes none: a `Config` is plain data that
the machine carries along unchanged (notes/assumptions/1.md), and a claim about every state is a claim about every
configuration. The machine has no free value: the spec leaves no VALUE open, only these parameters.
-/
namespace Sys2Proof

/-- `CELL_BITS`, written `W` (R7): a finite two's-complement width, or `INF`, unbounded integers. -/
inductive Width where
  | bits (w : Nat)
  | unbounded
deriving DecidableEq, Repr

/-- `ISA_LEVEL` (R3, R7): which opcode set is recognised. -/
inductive IsaLevel where
  | minimal
  | extended
deriving DecidableEq, Repr

/-- The configuration `( W, ISA_LEVEL, STRICT_SINGLE_OUTPUT )` of R20 and R32. -/
structure Config where
  width : Width
  level : IsaLevel
  strictSingleOutput : Bool
deriving DecidableEq, Repr

/-- R7: `W` is an integer `>= 16`, or `INF`. -/
def Config.wf (c : Config) : Bool :=
  match c.width with
  | .bits w => decide (16 ≤ w)
  | .unbounded => true

/-- The values R7 gives for an ISA level: `W = 64` (recommended), and `STRICT_SINGLE_OUTPUT` true exactly at `MINIMAL`. -/
def Config.default (l : IsaLevel) : Config :=
  { width := .bits 64, level := l, strictSingleOutput := decide (l = .minimal) }

end Sys2Proof
end

