-- ==== Sys2Proof/Syntax.lean ====
section
/-!
DEFINITION. The instructions of the Intcode core: one constructor of `Instr` per row of spec/opcode_table.json.

An `Instr` is what the Decoder makes of ONE instruction word (R74: "turn one raw instruction word into `(opcode,
operand-count, per-operand mode)`"): the opcode, and the mode of each value operand. The mode of a write-target operand
is forced (R65), so it is no datum of the instruction. The operand CELLS are no part of it either: the Decoder "does not
read operand cells" (R74), and the Executor fetches each of them from memory, in turn, when it resolves it (R91 phase 3),
so that a store into them is seen and the order of checks of R98 can be kept (notes/assumptions/5.md).
-/
namespace Sys2Proof

/-- The mode of a VALUE operand (R63): digit 0 is Position, digit 1 is Immediate. -/
inductive Mode where
  | position
  | immediate
deriving DecidableEq, Repr

/-- The three resolved modes the Decoder yields, one per operand (R65). -/
inductive OperandMode where
  | position
  | immediate
  | forcedAddress
deriving DecidableEq, Repr

/-- The nine opcodes of R64, in the order of the source's table. -/
inductive Opcode where
  | hlt
  | add
  | mul
  | inp
  | out
  | jnz
  | jz
  | lt
  | eq
deriving DecidableEq, Repr

/-- The instructions; `m0` and `m1` are the modes of the value operands 0 and 1. The write target of `add`, `mul`, `lt`,
`eq` is operand 2, that of `inp` is operand 0 (R64). `inp` is the table's `IN` (`in` is a word of Lean's). -/
inductive Instr where
  | hlt
  | add (m0 m1 : Mode)
  | mul (m0 m1 : Mode)
  | inp
  | out (m0 : Mode)
  | jnz (m0 m1 : Mode)
  | jz (m0 m1 : Mode)
  | lt (m0 m1 : Mode)
  | eq (m0 m1 : Mode)
deriving DecidableEq, Repr

/-- The two causes of a decode fault with the values R161 records for them. -/
inductive DecodeFault where
  /-- The word is negative, or its low two digits are no opcode recognised at the level (R67, R69); the word. -/
  | illegalOpcode (word : Int)
  /-- A mode digit at an operand position is neither 0 nor 1 (R63, R66); the word, the lowest such position, the digit. -/
  | illegalMode (word : Int) (index : Nat) (digit : Int)
deriving DecidableEq, Repr

end Sys2Proof
end

