-- ==== Sys2Proof/Machine/State.lean ====
section
/-!
DEFINITION. The whole architectural state (R20): `( M[0 .. N-1], N, pc, status, inp, out, out_log, fault )`, with the
configuration it runs under. "There is no other state" (R20): no register, no flag, no hidden state (R21, R26, R33, R34).
-/
namespace Sys2Proof.Machine

/-- The run status (R27). `halted` and `faulted` are terminal. -/
inductive Status where
  | running
  | halted
  | faulted
deriving DecidableEq, Repr

/-- The four fault classes (R160). -/
inductive FaultClass where
  | decodeFault
  | addressRangeFault
  | protocolViolation
  | arithmeticOverflow
deriving DecidableEq, Repr

/-- The nine causes of R161, each with the `info` that table records for it. Raising one is a step of the machine INTO the
state `Faulted` (R164), never an outcome outside it. -/
inductive FaultCause where
  /-- Code 1, a negative word or an opcode not recognised at the level; the word. Raised by the Decoder (R67, R69). -/
  | illegalOpcode (word : Int)
  /-- Code 2, a mode digit 2 to 9; the word, the lowest such operand index, the digit. Raised by the Decoder (R63, R66). -/
  | illegalMode (word : Int) (index : Nat) (digit : Int)
  /-- Code 3, `pc` outside Memory at the start of a step; `pc`. Raised by the fetch (R92). -/
  | fetchRange (pc : Int)
  /-- Code 4, an operand cell outside Memory; its address. Raised by opcodes 1 to 8 (R94). -/
  | operandFetchRange (address : Int)
  /-- Code 5, a Position operand naming a cell outside Memory; the address. Raised by opcodes 1, 2, 4 to 8 (R94). -/
  | readRange (address : Int)
  /-- Code 6, a write target outside Memory; the address. Raised by opcodes 1, 2, 3, 7, 8 (R96). -/
  | writeRange (address : Int)
  /-- Code 7, `IN` executed with no input. Raised by opcode 3 (R120). -/
  | noInput
  /-- Code 8, a second output under `STRICT_SINGLE_OUTPUT`; the value not emitted. Raised by opcode 4 (R121). -/
  | secondOutput (value : Int)
  /-- Code 9, the exact sum or product is no `Cell` value; the opcode. Raised by opcodes 1 and 2 (R112). -/
  | overflow (opcode : Int)
deriving DecidableEq, Repr

/-- The defect record of R31, `(cause, fpc, info)`; the `info` stands in the cause. -/
structure FaultRecord where
  cause : FaultCause
  fpc : Int
deriving DecidableEq, Repr

/-- The state of the core. `mem` lists the cells of `M` that are not 0, as (address, value) pairs in ONE canonical form
(`Memory.wf` of Ops.lean): every cell of `M` has a value from `LOAD` on (R22), so an unlisted address below `memLen` is a
cell that holds 0, not an unknown one (notes/assumptions/4.md). -/
structure State where
  /-- `W`, `ISA_LEVEL`, `STRICT_SINGLE_OUTPUT`: the parameters of the step (R32), changed by nothing (notes/assumptions/1.md). -/
  cfg : Config
  /-- `N`, the number of cells (R23). -/
  memLen : Nat
  /-- `M` (R22). -/
  mem : List (Nat × Cell)
  /-- The instruction pointer (R25). -/
  pc : Int
  /-- The run status (R27). -/
  status : Status
  /-- The input value, if one was supplied (R28). -/
  inp : Option Int
  /-- The output latch (R29). -/
  out : Option Int
  /-- Every value emitted, oldest first (R30). -/
  outLog : List Cell
  /-- The defect record (R31). -/
  fault : Option FaultRecord
deriving DecidableEq, Repr

/-- The state right after reset (R35): `LOAD` (the core's only reset, R190) of the EMPTY image, which R23 admits, with no
input, at R7's default configuration for `EXTENDED`. R35's values of `M`, `N` and `inp` are those of `LOAD`'s arguments;
taking the empty ones puts no program into the reset state (notes/assumptions/2.md). -/
def State.reset : State :=
  { cfg := Config.default .extended
    memLen := 0
    mem := []
    pc := 0
    status := .running
    inp := none
    out := none
    outLog := []
    fault := none }

/-- The reasons for which a step could end outside the machine's own state. There is NONE: every defect the spec names is
a step into the state `Faulted` (R164), and a terminal state is stepped to itself (R90). Safe: nothing raises it. -/
inductive Fault
deriving DecidableEq, Repr

/-- Why the model gives an instruction no meaning. -/
inductive Refusal where
  /-- The instruction has no meaning in the model yet; raised by its arm of `exec` only. Safe: no such arm is left. -/
  | notModelled (mnemonic : String)
deriving DecidableEq, Repr

/-- What a step of this machine answers. -/
abbrev Result := Host.Outcome State Fault Refusal

end Sys2Proof.Machine
end

