-- ==== Sys2Proof/Machine/Flags.lean ====
section
/-!
DEFINITION. What other machines keep in flags. This core has NO flags and no condition codes (R26): a comparison writes 1
or 0 to memory, a jump tests an operand against zero, and a result that does not fit a cell is a fault (R112). Here are
those four tests.
-/
namespace Sys2Proof

/-- `in_cell(v)` (R7, R9): `-2^(W-1) <= v <= 2^(W-1) - 1` at finite `W`, every integer at `INF`. -/
def Width.inCell (w : Width) (v : Int) : Bool :=
  match w with
  | .unbounded => true
  | .bits b => decide (-((Nat.pow 2 (b - 1) : Nat) : Int) ≤ v) && decide (v < ((Nat.pow 2 (b - 1) : Nat) : Int))

/-- The bound on the memory length (R7, R23): `N <= 2^(W-1) - 4` at finite `W`. -/
def Width.lengthFits (w : Width) (n : Nat) : Bool :=
  match w with
  | .unbounded => true
  | .bits b => decide (n + 4 ≤ Nat.pow 2 (b - 1))

end Sys2Proof

namespace Sys2Proof.Machine

/-- The exact result of opcode `o`, if it is a `Cell` value; else cause `Overflow` with the opcode as its info (R112).
Nothing is wrapped, saturated or truncated. -/
def State.checkedResult (s : State) (o : Int) (r : Int) : Except FaultCause Int :=
  if s.cfg.width.inCell r then .ok r else .error (.overflow o)

/-- What a comparison writes: 1 if it holds, else 0 (R140, R141). -/
def boolCell (b : Bool) : Int := if b then 1 else 0

end Sys2Proof.Machine
end

