-- ==== Sys2Proof/WellFormed.lean ====
section
/-!
DEFINITION. Which instructions exist at an ISA level (R64, column "lowest `ISA_LEVEL`"; R69). This is the one check that
an `Instr` needs: operand kinds, the number of operands and the two legal modes are in its type.
-/
namespace Sys2Proof

/-- The instruction is in the set the level recognises (R3, R69): `JNZ`, `JZ`, `LT`, `EQ` exist only at `EXTENDED`. -/
def Instr.wf (l : IsaLevel) : Instr → Bool
  | .hlt => true
  | .add _ _ => true
  | .mul _ _ => true
  | .inp => true
  | .out _ => true
  | .jnz _ _ => decide (l = .extended)
  | .jz _ _ => decide (l = .extended)
  | .lt _ _ => decide (l = .extended)
  | .eq _ _ => decide (l = .extended)

end Sys2Proof
end

