-- ==== Sys2Proof/Decode.lean ====
section
/-!
DEFINITION. The Decoder (30_encoding.md): total on every cell value, refusing by name; and after it the encoder.

Fields are DECIMAL digits of the word (R8, R61, R62). The Decoder is a pure function of the word and the level (R74).
-/
namespace Sys2Proof

/-! ### The opcode map (R64) -/

/-- The opcode's number, the value of digits 1 and 0 of the word (R61, R64). -/
def Opcode.number : Opcode → Int
  | .hlt => 99
  | .add => 1
  | .mul => 2
  | .inp => 3
  | .out => 4
  | .jnz => 5
  | .jz => 6
  | .lt => 7
  | .eq => 8

/-- The operand count `n` (R64). -/
def Opcode.arity : Opcode → Nat
  | .hlt => 0
  | .add => 3
  | .mul => 3
  | .inp => 1
  | .out => 1
  | .jnz => 2
  | .jz => 2
  | .lt => 3
  | .eq => 3

/-- `wt`: the index of the write-target operand, if the opcode writes memory (R64). -/
def Opcode.writeTarget : Opcode → Option Nat
  | .hlt => none
  | .add => some 2
  | .mul => some 2
  | .inp => some 0
  | .out => none
  | .jnz => none
  | .jz => none
  | .lt => some 2
  | .eq => some 2

/-- `REC(ISA_LEVEL)` (R69). -/
def IsaLevel.recognised : IsaLevel → List Opcode
  | .minimal => [.hlt, .add, .mul, .inp, .out]
  | .extended => [.hlt, .add, .mul, .inp, .out, .jnz, .jz, .lt, .eq]

/-- The opcode of an instruction. -/
def Instr.opcode : Instr → Opcode
  | .hlt => .hlt
  | .add _ _ => .add
  | .mul _ _ => .mul
  | .inp => .inp
  | .out _ => .out
  | .jnz _ _ => .jnz
  | .jz _ _ => .jz
  | .lt _ _ => .lt
  | .eq _ _ => .eq

/-- The operand count of an instruction. -/
def Instr.arity (i : Instr) : Nat := i.opcode.arity

/-- The width of an instruction in cells, "1 + operand count" (R60, R73). -/
def Instr.width (i : Instr) : Nat := 1 + i.arity

/-- The resolved mode of a value operand with this mode. -/
def Mode.resolved : Mode → OperandMode
  | .position => .position
  | .immediate => .immediate

/-- The per-operand resolved modes of an instruction, operand 0 first (R65). -/
def Instr.modes : Instr → List OperandMode
  | .hlt => []
  | .add m0 m1 => [m0.resolved, m1.resolved, .forcedAddress]
  | .mul m0 m1 => [m0.resolved, m1.resolved, .forcedAddress]
  | .inp => [.forcedAddress]
  | .out m0 => [m0.resolved]
  | .jnz m0 m1 => [m0.resolved, m1.resolved]
  | .jz m0 m1 => [m0.resolved, m1.resolved]
  | .lt m0 m1 => [m0.resolved, m1.resolved, .forcedAddress]
  | .eq m0 m1 => [m0.resolved, m1.resolved, .forcedAddress]

/-! ### The Decoder (R74) -/

/-- `dig(w, k)` (R8): decimal digit `k` of a word, digit 0 the units; used on non-negative words only (R67). -/
def dig (w : Int) (k : Nat) : Int := w / ((Nat.pow 10 k : Nat) : Int) % 10

/-- `decode_opcode` (R74): the sign check of R67, then the look-up of `w mod 100` in `REC(ISA_LEVEL)` (R61, R69). -/
def decodeOpcode (l : IsaLevel) (w : Int) : Except DecodeFault Opcode :=
  if w < 0 then .error (.illegalOpcode w)
  else match l.recognised.find? (fun o => o.number == w % 100) with
    | some o => .ok o
    | none => .error (.illegalOpcode w)

/-- The mode digit of operand position `i`, `dig(w, 2 + i)`, checked (R62, R63). R66: the check is made at EVERY operand
position, also at a write target's, whose mode is then overridden. -/
def modeAt (w : Int) (i : Nat) : Except DecodeFault Mode :=
  if dig w (2 + i) = 0 then .ok .position
  else if dig w (2 + i) = 1 then .ok .immediate
  else .error (.illegalMode w i (dig w (2 + i)))

/-- The mode digits of a word whose opcode is known, checked in ascending operand index, the first bad one reported
(R75); at a write target the digit is checked and its mode dropped (R65, R66). -/
def decodeOperands (w : Int) : Opcode → Except DecodeFault Instr
  | .hlt => .ok .hlt
  | .add => do
    let m0 ← modeAt w 0
    let m1 ← modeAt w 1
    let _ ← modeAt w 2
    return .add m0 m1
  | .mul => do
    let m0 ← modeAt w 0
    let m1 ← modeAt w 1
    let _ ← modeAt w 2
    return .mul m0 m1
  | .inp => do
    let _ ← modeAt w 0
    return .inp
  | .out => do
    let m0 ← modeAt w 0
    return .out m0
  | .jnz => do
    let m0 ← modeAt w 0
    let m1 ← modeAt w 1
    return .jnz m0 m1
  | .jz => do
    let m0 ← modeAt w 0
    let m1 ← modeAt w 1
    return .jz m0 m1
  | .lt => do
    let m0 ← modeAt w 0
    let m1 ← modeAt w 1
    let _ ← modeAt w 2
    return .lt m0 m1
  | .eq => do
    let m0 ← modeAt w 0
    let m1 ← modeAt w 1
    let _ ← modeAt w 2
    return .eq m0 m1

/-- `decode` (R74): the sign and opcode checks come first, then the mode digits (R75). Total: every cell value is a legal
word or is refused under the name of its decode fault (R72). -/
def decode (l : IsaLevel) (w : Int) : Except DecodeFault Instr :=
  (decodeOpcode l w).bind (decodeOperands w)

/-- `decode_mode` in the per-index form of R74: the check, then the write-target override. -/
def decodeMode (w : Int) (o : Opcode) (i : Nat) : Except DecodeFault OperandMode :=
  (modeAt w i).map fun m => if o.writeTarget = some i then .forcedAddress else m.resolved

/-- The mode list of R74's `decode`, `for i = 0, 1, .., n-1 in that order`: `k` operands from index `i` on. -/
def decodeModesFrom (w : Int) (o : Opcode) : Nat → Nat → Except DecodeFault (List OperandMode)
  | _, 0 => .ok []
  | i, k + 1 =>
    (decodeMode w o i).bind fun m => (decodeModesFrom w o (i + 1) k).map fun ms => m :: ms

/-- R74's `decode` with the result in the contract's own form, `(opcode, operand-count, per-operand mode)`. The machine
runs `decode`; an obligation says that the two agree (90_conflicts.md C8). -/
def decodeContract (l : IsaLevel) (w : Int) : Except DecodeFault (Opcode × Nat × List OperandMode) :=
  (decodeOpcode l w).bind fun o =>
    (decodeModesFrom w o 0 o.arity).map fun ms => (o, o.arity, ms)

/-! ### The encoder (R70, R76) -/

/-- The mode digit the assembler of R76 writes: 0 for Position and for a write target, 1 for Immediate. -/
def OperandMode.digit : OperandMode → Int
  | .position => 0
  | .immediate => 1
  | .forcedAddress => 0

/-- The digit that stands for a mode (R63). -/
def Mode.digit : Mode → Int
  | .position => 0
  | .immediate => 1

/-- `m_k` of the canonical word: the digit of operand `k`, 0 where there is no operand `k`. -/
def Instr.modeDigit (i : Instr) (k : Nat) : Int :=
  match i.modes[k]? with
  | some m => m.digit
  | none => 0

/-- The canonical word of an instruction, `word = opcode + 100*m_0 + 1000*m_1 + 10000*m_2` (R70, R76). -/
def encode (i : Instr) : Int :=
  i.opcode.number + 100 * i.modeDigit 0 + 1000 * i.modeDigit 1 + 10000 * i.modeDigit 2

/-- EVERY legal word of an instruction (R70): the canonical word, with the mode digit `t` at the write target (`10000` more
for the four `F3` opcodes, `103` for `IN`), plus a multiple `u` of `10^(2+n)` (R68). -/
def encodeWith (i : Instr) (t : Mode) (u : Nat) : Int :=
  encode i
    + (match i.opcode.writeTarget with
       | some k => t.digit * ((Nat.pow 10 (2 + k) : Nat) : Int)
       | none => 0)
    + (u : Int) * ((Nat.pow 10 (2 + i.arity) : Nat) : Int)

/-- The cells of an instruction with its operand cells, in address order (R60, R76): the word, then operand 0, 1, 2. -/
def encodeCells (i : Instr) (operands : List Cell) : List Cell := encode i :: operands

/-! ### Words numbered in bits

The ISA has no bit fields (R8); the host numbers a word's bits all the same. A cell of `b` bits is read as a
two's-complement integer (R7), and a later cell's bits count on from the first one's (notes/assumptions/8.md). -/

/-- Cell `k` of a word of bits cut into cells of `b` bits, as a signed integer. -/
def cellOfBits (b k w : Nat) : Int :=
  let v := w / Nat.pow 2 (b * k) % Nat.pow 2 b
  if v < Nat.pow 2 (b - 1) then (v : Int) else (v : Int) - ((Nat.pow 2 b : Nat) : Int)

/-- How many bits a cell is given in that numbering: `W`, and 64 (R7's recommended width) where cells are unbounded. -/
def Width.layoutBits : Width → Nat
  | .bits w => w
  | .unbounded => 64

/-- The instruction the Decoder reads from the word whose bits are `w`, at the default configuration of R7 (`W = 64`,
`EXTENDED`). The Decoder sees the first cell only, so `nbits` does not matter. -/
def decodeTableWord (_nbits w : Nat) : Option Instr :=
  match decode .extended (cellOfBits 64 0 w) with
  | .ok i => some i
  | .error _ => none

end Sys2Proof
end

