-- ==== Sys2Proof/Machine/Ops.lean ====
section
/-!
DEFINITION. The named operations over memory and `pc`, and fault entry.

Addresses are compared with `0` and `N` as signed integers: none is wrapped, masked or scaled (R55). Code and data share
the one address space (R40), so the fetch of a word reads the same cells as any other access (R52).
-/
namespace Sys2Proof.Machine

/-! ### Memory as data -/

/-- What a listed memory holds at an address: the listed value, and 0 at an unlisted address. -/
def Memory.lookup : List (Nat × Cell) → Nat → Int
  | [], _ => 0
  | (k, v) :: rest, a => if k = a then v else Memory.lookup rest a

/-- Put a pair where its address belongs in a rising list. -/
def Memory.insert (a : Nat) (v : Int) : List (Nat × Cell) → List (Nat × Cell)
  | [] => [(a, v)]
  | (k, x) :: rest => if a < k then (a, v) :: (k, x) :: rest else (k, x) :: Memory.insert a v rest

/-- Write one cell: what was listed at the address goes, and the value is listed if it is not 0. -/
def Memory.put (m : List (Nat × Cell)) (a : Nat) (v : Int) : List (Nat × Cell) :=
  let m' := m.filter fun e => e.1 != a
  if v = 0 then m' else Memory.insert a v m'

/-- The addresses rise strictly. -/
def Memory.rising : List (Nat × Cell) → Bool
  | [] => true
  | (k, _) :: rest => rest.all (fun e => decide (k < e.1)) && Memory.rising rest

/-- The canonical form of a memory of `n` cells: addresses strictly rising and below `n`, and no cell listed that holds 0. -/
def Memory.wf (n : Nat) (m : List (Nat × Cell)) : Bool :=
  Memory.rising m && m.all fun e => decide (e.1 < n) && decide (e.2 ≠ 0)

/-- The listed form of an image whose first element goes to address `a` (R41: element `k` at address `k`). -/
def Memory.ofImage : Nat → List Cell → List (Nat × Cell)
  | _, [] => []
  | a, v :: rest => if v = 0 then Memory.ofImage (a + 1) rest else (a, v) :: Memory.ofImage (a + 1) rest

/-- `M[a]` (R9), without a check; asked only of addresses that passed one, and by the host's read-back. -/
def State.cellAt (s : State) (a : Int) : Int := Memory.lookup s.mem a.toNat

/-- The bounds check of R43 and R44: `0 <= a < N`. -/
def State.inBounds (s : State) (a : Int) : Bool := decide (0 ≤ a) && decide (a < (s.memLen : Int))

/-- `MemRead(a, 1)` (R43); the caller's context chooses the cause. -/
def State.memRead (s : State) (cause : Int → FaultCause) (a : Int) : Except FaultCause Int :=
  if s.inBounds a then .ok (s.cellAt a) else .error (cause a)

/-- `MemWrite(a, 1, v)` (R44): exactly one cell changes, or cause `WriteRange`. -/
def State.memWrite (s : State) (a v : Int) : Except FaultCause State :=
  if s.inBounds a then .ok { s with mem := Memory.put s.mem a.toNat v } else .error (.writeRange a)

/-- The whole of `M[0 .. N-1]`, cell 0 first: what the host reads back (R174, R197). -/
def State.image (s : State) : List Cell := (List.range s.memLen).map fun a => Memory.lookup s.mem a

/-! ### Fetch and sequencing -/

/-- Phase 1 of the step (R91, R92): the word at `pc`, or cause `FetchRange`. -/
def State.fetchWord (s : State) : Except FaultCause Int := s.memRead .fetchRange s.pc

/-- The default advance (R97): `pc <- p + 1 + n`. -/
def State.advance (s : State) (n : Nat) : State := { s with pc := s.pc + 1 + (n : Int) }

/-- What a taken jump does (R97, R130): `pc <- target`, unchecked. -/
def State.jumpTo (s : State) (target : Int) : State := { s with pc := target }

/-! ### Faults

`raise` IS the machine's exception entry (R164). There is no return from it: no instruction returns (R151, R166), and the
one way out of `Faulted` is a new `LOAD` (`load` of Load.lean). -/

/-- The cause a decode fault is recorded under (R161). -/
def FaultCause.ofDecode : DecodeFault → FaultCause
  | .illegalOpcode w => .illegalOpcode w
  | .illegalMode w i d => .illegalMode w i d

/-- The code number of a cause (R161). -/
def FaultCause.code : FaultCause → Nat
  | .illegalOpcode _ => 1
  | .illegalMode _ _ _ => 2
  | .fetchRange _ => 3
  | .operandFetchRange _ => 4
  | .readRange _ => 5
  | .writeRange _ => 6
  | .noInput => 7
  | .secondOutput _ => 8
  | .overflow _ => 9

/-- The class of a cause (R160, R161). -/
def FaultCause.faultClass : FaultCause → FaultClass
  | .illegalOpcode _ => .decodeFault
  | .illegalMode _ _ _ => .decodeFault
  | .fetchRange _ => .addressRangeFault
  | .operandFetchRange _ => .addressRangeFault
  | .readRange _ => .addressRangeFault
  | .writeRange _ => .addressRangeFault
  | .noInput => .protocolViolation
  | .secondOutput _ => .protocolViolation
  | .overflow _ => .arithmeticOverflow

/-- The `info` of a cause as a list of numbers, in the order of R161's table. -/
def FaultCause.info : FaultCause → List Int
  | .illegalOpcode w => [w]
  | .illegalMode w i d => [w, (i : Int), d]
  | .fetchRange a => [a]
  | .operandFetchRange a => [a]
  | .readRange a => [a]
  | .writeRange a => [a]
  | .noInput => []
  | .secondOutput v => [v]
  | .overflow o => [o]

/-- Fault entry (R164): `status <- Faulted`, `fault <- some(C, p, info)`, and nothing else. -/
def State.raise (s : State) (c : FaultCause) : State :=
  { s with status := .faulted, fault := some { cause := c, fpc := s.pc } }

/-- The end of a step that began in `s` (R99): all of its effects, or fault entry from `s` and none of them. -/
def State.settle (s : State) : Except FaultCause State → Result
  | .ok t => .next t
  | .error c => .next (s.raise c)

end Sys2Proof.Machine
end

