-- ==== Sys2Proof/Machine/Operands.lean ====
section
/-!
DEFINITION. Operand resolution (R94): the two forms of a value operand and the one form of a write target. There is no
other: no register, no base, index or offset (R21, R55, R71).
-/
namespace Sys2Proof.Machine

/-- `raw_i`: the operand cell at `p + 1 + i`, used as it stands (R71, R91 phase 3), or cause `OperandFetchRange`. -/
def State.operandCell (s : State) (i : Nat) : Except FaultCause Int :=
  s.memRead .operandFetchRange (s.pc + 1 + (i : Int))

/-- A value operand (R94): Immediate is the literal; Position dereferences exactly once, or cause `ReadRange`. -/
def State.valueOperand (s : State) (i : Nat) : Mode → Except FaultCause Int
  | .immediate => s.operandCell i
  | .position => (s.operandCell i).bind (s.memRead .readRange)

/-- A write target (R65, R94): the address `raw_i` itself, never dereferenced, its bounds not checked here (R96). -/
def State.targetOperand (s : State) (i : Nat) : Except FaultCause Int := s.operandCell i

end Sys2Proof.Machine
end

