-- ==== Sys2Proof/Machine/Forms.lean ====
section
/-!
DEFINITION. The instruction formats (R60) as skeletons: what the instructions of one format have in common of phases 3 to 6
of the step (R91). All operands are resolved, in ascending order, before the operation is applied (R98, R100); the write
comes last, after every other check (R96).
-/
namespace Sys2Proof.Machine

/-- Format `F3`: two value operands, one result written to the target operand 2, advance by 4 (`ADD`, `MUL`, `LT`, `EQ`). -/
def State.computeStore (s : State) (m0 m1 : Mode) (f : Int → Int → Except FaultCause Int) : Result :=
  s.settle (do
    let a ← s.valueOperand 0 m0
    let b ← s.valueOperand 1 m1
    let dest ← s.targetOperand 2
    let r ← f a b
    let t ← s.memWrite dest r
    return t.advance 3)

/-- Format `F2`: a tested value and a target value, both resolved whether the jump is taken or not (R100); taken sets `pc`
to the target unchecked, not taken advances by 3 (`JNZ`, `JZ`). -/
def State.branch (s : State) (m0 m1 : Mode) (taken : Int → Bool) : Result :=
  s.settle (do
    let a ← s.valueOperand 0 m0
    let target ← s.valueOperand 1 m1
    return if taken a then s.jumpTo target else s.advance 2)

end Sys2Proof.Machine
end

