-- ==== Sys2Proof/Machine/Arithmetic.lean ====
section
/-!
DEFINITION. The arithmetic instructions (41_arithmetic.md): exact signed sum and product, a result outside the cell range a
fault (R112).
-/
namespace Sys2Proof.Machine

/-- `ADD` (R110): `Memory[dest] = a + b`. -/
def execAdd (m0 m1 : Mode) (s : State) : Result :=
  s.computeStore m0 m1 fun a b => s.checkedResult 1 (a + b)

/-- `MUL` (R111): `Memory[dest] = a * b`. -/
def execMul (m0 m1 : Mode) (s : State) : Result :=
  s.computeStore m0 m1 fun a b => s.checkedResult 2 (a * b)

end Sys2Proof.Machine
end

