-- ==== Sys2Proof/Machine/Compare.lean ====
section
/-!
DEFINITION. The comparisons (44_compare.md): signed, exact, 1 or 0 written to memory, always written.
-/
namespace Sys2Proof.Machine

/-- `LT` (R140): `Memory[dest] = 1 if a < b else 0`. -/
def execLt (m0 m1 : Mode) (s : State) : Result :=
  s.computeStore m0 m1 fun a b => .ok (boolCell (decide (a < b)))

/-- `EQ` (R141): `Memory[dest] = 1 if a == b else 0`. -/
def execEq (m0 m1 : Mode) (s : State) : Result :=
  s.computeStore m0 m1 fun a b => .ok (boolCell (decide (a = b)))

end Sys2Proof.Machine
end

