-- ==== Sys2Proof/Machine/Halt.lean ====
section
/-!
DEFINITION. The halt instruction (45_halt.md).
-/
namespace Sys2Proof.Machine

/-- `HLT` (R150): `status <- Halted`; `pc` is left at the address of the halt word. -/
def execHlt (s : State) : Result := .next { s with status := .halted }

end Sys2Proof.Machine
end

