-- ==== Sys2Proof/Machine/InOut.lean ====
section
/-!
DEFINITION. Input and output (42_io.md), with `HLT` the machine's only dealings with its environment.
-/
namespace Sys2Proof.Machine

/-- The input value, which `IN` reads and does not change (R28), or cause `NoInput` (R120). -/
def State.readInput (s : State) : Except FaultCause Int :=
  match s.inp with
  | some x => .ok x
  | none => .error .noInput

/-- The output event (R121): the latch is replaced and the value appended to the log; under `STRICT_SINGLE_OUTPUT` a second
output is refused with cause `SecondOutput` and not emitted. -/
def State.emit (s : State) (v : Int) : Except FaultCause State :=
  if s.cfg.strictSingleOutput && s.out.isSome then .error (.secondOutput v)
  else .ok { s with out := some v, outLog := s.outLog ++ [v] }

/-- `IN` (R120): `Memory[dest] = input`; the input check precedes the write. -/
def execIn (s : State) : Result :=
  s.settle (do
    let dest ← s.targetOperand 0
    let x ← s.readInput
    let t ← s.memWrite dest x
    return t.advance 1)

/-- `OUT` (R121): emits its operand; the run goes on at `p + 2`. -/
def execOut (m0 : Mode) (s : State) : Result :=
  s.settle (do
    let v ← s.valueOperand 0 m0
    let t ← s.emit v
    return t.advance 1)

end Sys2Proof.Machine
end

