-- ==== Sys2Proof/Machine/Jumps.lean ====
section
/-!
DEFINITION. The conditional jumps (43_jumps.md): absolute, the target an operand VALUE, copied to `pc` without a check.
-/
namespace Sys2Proof.Machine

/-- `JNZ` (R130): "if `a != 0`, set instruction pointer to `target`; else continue". -/
def execJnz (m0 m1 : Mode) (s : State) : Result :=
  s.branch m0 m1 fun a => decide (a ≠ 0)

/-- `JZ` (R131): "if `a == 0`, set instruction pointer to `target`; else continue". -/
def execJz (m0 m1 : Mode) (s : State) : Result :=
  s.branch m0 m1 fun a => decide (a = 0)

end Sys2Proof.Machine
end

