-- ==== Sys2Proof/Machine/Dispatch.lean ====
section
/-!
DEFINITION. Dispatch (R95): phases 3 to 6 of the step (R91) for each instruction, one arm per constructor.
-/
namespace Sys2Proof.Machine

/-- Execute the decoded instruction that stands at `pc`. -/
def exec (i : Instr) (s : State) : Host.Outcome State Fault Refusal :=
  match i with
  | .hlt => Sys2Proof.Machine.execHlt s
  | .add m0 m1 => Sys2Proof.Machine.execAdd m0 m1 s
  | .mul m0 m1 => Sys2Proof.Machine.execMul m0 m1 s
  | .inp => Sys2Proof.Machine.execIn s
  | .out m0 => Sys2Proof.Machine.execOut m0 s
  | .jnz m0 m1 => Sys2Proof.Machine.execJnz m0 m1 s
  | .jz m0 m1 => Sys2Proof.Machine.execJz m0 m1 s
  | .lt m0 m1 => Sys2Proof.Machine.execLt m0 m1 s
  | .eq m0 m1 => Sys2Proof.Machine.execEq m0 m1 s

end Sys2Proof.Machine
end

