-- ==== Sys2Proof/Machine/Load.lean ====
section
/-!
DEFINITION. The host's side of the machine (R174): `LOAD`, the core's only reset (R190), read-back at the end of a run
(R197), and the cells the host's table words are laid into.
-/
namespace Sys2Proof.Machine

/-- `LOAD(image, input)` under a configuration (R190): refused (`none`: no run exists) when the configuration is none of
R7's, when `N > 2^(W-1) - 4`, or when an image value or the input is no `Cell` value; else the state of R35. The image is
copied and not examined. -/
def load (c : Config) (image : List Cell) (input : Option Int) : Option State :=
  if c.wf && c.width.lengthFits image.length && image.all c.width.inCell && input.toList.all c.width.inCell then
    some
      { cfg := c
        memLen := image.length
        mem := Memory.ofImage 0 image
        pc := 0
        status := .running
        inp := input
        out := none
        outLog := []
        fault := none }
  else none

/-- What a run hands back at its end (R174, R193, R197): the results of a halted run; or the defect of a faulted one, which
has no result, and beside it the same state "for inspection". -/
inductive RunEnd where
  | halted (out : Option Int) (outLog : List Cell) (image : List Cell) (pc : Int)
  | faulted (defect : Option FaultRecord) (out : Option Int) (outLog : List Cell) (image : List Cell) (pc : Int)
deriving DecidableEq, Repr

/-- Read-back (R174): `none` while the machine is running; it changes nothing. -/
def State.readBack (s : State) : Option RunEnd :=
  match s.status with
  | .running => none
  | .halted => some (.halted s.out s.outLog s.image s.pc)
  | .faulted => some (.faulted s.fault s.out s.outLog s.image s.pc)

/-- Write the values to consecutive cells from `a` on, growing the memory to hold them: a step of building an image, not
of the machine (whose memory cannot grow). -/
def State.placeCells (s : State) : Nat → List Cell → State
  | _, [] => s
  | a, v :: rest =>
    State.placeCells { s with mem := Memory.put s.mem a v, memLen := max s.memLen (a + 1) } (a + 1) rest

/-- `s` made ready to run the four cells of a word of bits as its very next instruction: `pc` at a cell (0 if it is
negative), the cells placed there, the machine running with no defect recorded (notes/assumptions/8.md). -/
def State.placeInstruction (s : State) (w : Nat) : State :=
  let p := if 0 ≤ s.pc then s.pc else 0
  let b := s.cfg.width.layoutBits
  State.placeCells { s with pc := p, status := .running, fault := none } p.toNat
    [cellOfBits b 0 w, cellOfBits b 1 w, cellOfBits b 2 w, cellOfBits b 3 w]

end Sys2Proof.Machine
end

