-- ==== Sys2Proof/Machine/Step.lean ====
section
/-!
DEFINITION. One step of the Executor (R91): fetch, decode, then the decoded instruction.
-/
namespace Sys2Proof.Machine

/-- The step. It exists only in `Running` (R90); a terminal state is answered unchanged, without a fetch (R90, D23). The
fetch fault (R92) and the decode faults (R93) are entered before any operand cell is read (R98). -/
def step (s : State) : Host.Outcome State Fault Refusal :=
  match s.status with
  | .running =>
    match s.fetchWord with
    | .error c => .next (s.raise c)
    | .ok w =>
      match decode s.cfg.level w with
      | .error d => .next (s.raise (.ofDecode d))
      | .ok i => exec i s
  | .halted => .next s
  | .faulted => .next s

/-- `s` with the instruction whose bits are `w` where the next step fetches. `nbits` does not matter: the bits above it are
zero (notes/assumptions/8.md). -/
def State.withFetchWord (s : State) (_nbits w : Nat) : State := s.placeInstruction w

end Sys2Proof.Machine
end

