-- ==== Sys2Proof/Machine/Run.lean ====
section
/-!
DEFINITION. The run loop (R101): steps while the machine is `Running`, under a number of steps that is no part of the
machine (the harness's `STEP_LIMIT`, R7, R196).
-/
namespace Sys2Proof.Machine

/-- The state a step answers, if it answers one. -/
def nextState (s : State) : Option State :=
  match step s with
  | .next t => some t
  | .fault _ => none
  | .refused _ => none

/-- The end of the run that starts in `s` (R193), if it comes within `k` steps; `none` is no result at all (R101): running
out of steps is no event of the machine (R196). -/
def runToEnd : Nat → State → Option State
  | 0, s => if s.status = .running then none else some s
  | k + 1, s => if s.status = .running then (nextState s).bind (runToEnd k) else some s

/-- The instruction-pointer trace a test asks for (R133, R172): `pc` at the start of each of the next `k` steps that exist. -/
def pcTrace : Nat → State → List Cell
  | 0, _ => []
  | k + 1, s =>
    if s.status = .running then
      s.pc :: (match nextState s with
               | some t => pcTrace k t
               | none => [])
    else []

end Sys2Proof.Machine
end

