-- ==== Sys2Proof/Safety.lean ====
section
/-!
DEFINITION. The words the claims are stated in: when a cell holds a value, what an operand resolves to, when it faults, what a
step leaves alone, and the invariant of the state. They are written from the rules over the model's read of ONE cell
(`State.cellAt`), not over the operations of the machine, so that a claim compares the two.
-/
namespace Sys2Proof.Machine

/-- `a` is an address of Memory: `0 <= a < N` (R40, R46). -/
def State.IsCell (s : State) (a : Int) : Prop := 0 ≤ a ∧ a < (s.memLen : Int)

/-- `a` is an address of Memory and `M[a] = v`. -/
def State.Holds (s : State) (a v : Int) : Prop := s.IsCell a ∧ s.cellAt a = v

/-- Operand `k` of the instruction at `pc`, resolved through `m`, is `v` (R94). For a write target `v` is the address. -/
def State.OperandIs (s : State) (k : Nat) (m : OperandMode) (v : Int) : Prop :=
  match m with
  | .immediate => s.Holds (s.pc + 1 + k) v
  | .forcedAddress => s.Holds (s.pc + 1 + k) v
  | .position => ∃ raw, s.Holds (s.pc + 1 + k) raw ∧ s.Holds raw v

/-- Resolving operand `k` through `m` meets the fault condition `c` (R94): its cell lies outside Memory, or it is a Position
operand that names a cell outside Memory. -/
def State.OperandFaults (s : State) (k : Nat) (m : OperandMode) (c : FaultCause) : Prop :=
  (¬ s.IsCell (s.pc + 1 + k) ∧ c = .operandFetchRange (s.pc + 1 + k)) ∨
  (m = .position ∧ ∃ raw, s.Holds (s.pc + 1 + k) raw ∧ ¬ s.IsCell raw ∧ c = .readRange raw)

/-- The FIRST fault condition that resolving the operands `ms` in ascending order meets is `c` (R98 item 4). -/
def State.FirstOperandFault (s : State) (ms : List OperandMode) (c : FaultCause) : Prop :=
  ∃ k m, ms[k]? = some m ∧ s.OperandFaults k m c ∧
    ∀ j mj, j < k → ms[j]? = some mj → ∃ v, s.OperandIs j mj v

/-- `t` is `s` after one store: cell `dest` holds `v`, `pc` is `next`, every other cell and every other piece of state is
as before. -/
structure State.Stores (s t : State) (dest v next : Int) : Prop where
  stored : t.cellAt dest = v
  others : ∀ a, 0 ≤ a → a ≠ dest → t.cellAt a = s.cellAt a
  pc : t.pc = next
  memLen : t.memLen = s.memLen
  cfg : t.cfg = s.cfg
  status : t.status = s.status
  inp : t.inp = s.inp
  out : t.out = s.out
  outLog : t.outLog = s.outLog
  fault : t.fault = s.fault

/-- `t` is `s` after fault entry with cause `c` (R164), field by field. -/
def State.FaultsTo (s t : State) (c : FaultCause) : Prop :=
  t = { s with status := .faulted, fault := some { cause := c, fpc := s.pc } }

/-- What holds of the state from `LOAD` on, in every run: the invariants of R23, R25, R28 to R31 and the canonical form of
the listed memory. -/
structure State.Inv (s : State) : Prop where
  cfgWf : s.cfg.wf = true
  memWf : Memory.wf s.memLen s.mem = true
  cells : ∀ e ∈ s.mem, s.cfg.width.inCell e.2 = true
  lengthFits : s.cfg.width.lengthFits s.memLen = true
  pcCell : s.cfg.width.inCell s.pc = true
  inpCell : ∀ v, s.inp = some v → s.cfg.width.inCell v = true
  logCells : ∀ v ∈ s.outLog, s.cfg.width.inCell v = true
  outIsLast : s.out = s.outLog.getLast?
  strictOnce : s.cfg.strictSingleOutput = true → s.outLog.length ≤ 1
  faultNone : s.status ≠ .faulted → s.fault = none
  faultSome : s.status = .faulted → ∃ c, s.fault = some { cause := c, fpc := s.pc }

/-- A run that started from a `LOAD` and whose result is valid (R164, R193): it reached `Halted`, not `Faulted`. -/
def State.EndedWell (s : State) : Prop := s.status = .halted

/-- The codes of the causes an instruction can raise once it is decoded: the column "raised by" of R161, read by opcode. Codes
1 and 2 are the Decoder's, code 3 the fetch's. -/
def executionCauses : Opcode → List Nat
  | .hlt => []
  | .add => [4, 5, 6, 9]
  | .mul => [4, 5, 6, 9]
  | .inp => [4, 6, 7]
  | .out => [4, 5, 8]
  | .jnz => [4, 5]
  | .jz => [4, 5]
  | .lt => [4, 5, 6]
  | .eq => [4, 5, 6]

end Sys2Proof.Machine

namespace Sys2Proof

/-- Configuration `c'` admits everything `c` does: no opcode fewer, no output check more, no cell value fewer (D4, D5, D1). -/
def Config.Within (c c' : Config) : Prop :=
  (c.level = .minimal ∨ c'.level = .extended) ∧
  (c.strictSingleOutput = true ∨ c'.strictSingleOutput = false) ∧
  ∀ v, c.width.inCell v = true → c'.width.inCell v = true

end Sys2Proof
end

