-- ==== Sys2Proof/Certificates/Slice0/Obligations.lean ====
section
/-!
DEFINITION. The statements for the provers, in the words of Safety.lean. Each docstring names the rule of spec/ it comes from.
Where a clause rests on a choice the spec marks as its own (`[decision: … D<n>]`) or on an entry of the assumption log, the
docstring says so.
-/

open Sys2Proof Sys2Proof.Machine

/-! ### The Decoder and the encoder -/

/-- R70, R68: a word decodes to an instruction exactly if it is one of the encodings of that instruction (write-target digit 0
or 1, any multiple of `10^(2+n)`) and the level recognises it. Ignoring the unused digits is D8, checking the write-target
digit is D9, refusing negative words is D7. -/
def Obligations.LegalWordsAreExactlyTheEncodings : Prop :=
  ∀ (l : IsaLevel) (w : Int) (i : Instr),
    decode l w = .ok i ↔ i.wf l = true ∧ ∃ (t : Mode) (u : Nat), w = encodeWith i t u

/-- R70, R76: the canonical word of every instruction of a level decodes to it, at that level. -/
def Obligations.DecodeOfEncodeIsTheInstruction : Prop :=
  ∀ (l : IsaLevel) (i : Instr), i.wf l = true → decode l (encode i) = .ok i

/-- R74: the Decoder the machine runs gives the contract's `(opcode, operand-count, per-operand mode)`, and the same fault
where that faults. -/
def Obligations.DecoderMeetsItsContract : Prop :=
  ∀ (l : IsaLevel) (w : Int),
    decodeContract l w = (decode l w).map fun i => (i.opcode, i.arity, i.modes)

/-- R75 (D10), with R67 (D7) and R66 (D9): the sign and opcode checks come first; then the mode digits in ascending operand
index, the first bad one reported. Every refusal is one of the two and names the word. -/
def Obligations.DecodeFaultsAreReportedInOrder : Prop :=
  ∀ (l : IsaLevel) (w : Int),
    (decode l w = .error (.illegalOpcode w) ↔ w < 0 ∨ ∀ o ∈ l.recognised, w % 100 ≠ o.number) ∧
    (∀ (k : Nat) (d : Int), decode l w = .error (.illegalMode w k d) ↔
      0 ≤ w ∧ d = w / 10 ^ (2 + k) % 10 ∧ d ≠ 0 ∧ d ≠ 1 ∧
      ∃ o ∈ l.recognised, w % 100 = o.number ∧ k < o.arity ∧
        ∀ j < k, w / 10 ^ (2 + j) % 10 = 0 ∨ w / 10 ^ (2 + j) % 10 = 1) ∧
    ∀ f, decode l w = .error f → f = .illegalOpcode w ∨ ∃ k d, f = .illegalMode w k d

/-- R69: the opcodes recognised at each level, by number; a fetched word with any other opcode faults when it is executed. -/
def Obligations.UnrecognisedOpcodesFaultAtFetch : Prop :=
  ∀ (s : State) (w : Int), s.status = .running → s.Holds s.pc w → 0 ≤ w →
    (s.cfg.level = .minimal → w % 100 ∉ ([99, 1, 2, 3, 4] : List Int) →
      ∃ t, step s = .next t ∧ s.FaultsTo t (.illegalOpcode w)) ∧
    (s.cfg.level = .extended → w % 100 ∉ ([99, 1, 2, 3, 4, 5, 6, 7, 8] : List Int) →
      ∃ t, step s = .next t ∧ s.FaultsTo t (.illegalOpcode w))

/-- R63: digit 0 is Position (dereference once), digit 1 is Immediate (used as it is), digits 2 to 9 are `IllegalMode`. -/
def Obligations.ModeDigitsMeanPositionImmediateOrFault : Prop :=
  ∀ (w : Int) (k : Nat), 0 ≤ w →
    (w / 10 ^ (2 + k) % 10 = 0 → modeAt w k = .ok .position) ∧
    (w / 10 ^ (2 + k) % 10 = 1 → modeAt w k = .ok .immediate) ∧
    (2 ≤ w / 10 ^ (2 + k) % 10 → modeAt w k = .error (.illegalMode w k (w / 10 ^ (2 + k) % 10))) ∧
    ∀ (s : State) (raw : Int), s.Holds (s.pc + 1 + k) raw →
      s.valueOperand k .immediate = .ok raw ∧
      ∀ v, s.Holds raw v → s.valueOperand k .position = .ok v

/-- R79: the source's worked decode example, in the Decoder's two forms and at both levels. -/
def Obligations.WorkedDecodeExample : Prop :=
  ∀ l : IsaLevel,
    decodeContract l 1002 = .ok (.mul, 3, [.position, .immediate, .forcedAddress]) ∧
    decode l 1002 = .ok (.mul .position .immediate)

/-- R70: words written out digit by digit from R62's layout and R64's table decode to the instruction they stand for. -/
def Obligations.WrittenOutWordsDecode : Prop :=
  decode .minimal 99 = .ok .hlt ∧ decode .minimal 1101 = .ok (.add .immediate .immediate) ∧
  decode .minimal 102 = .ok (.mul .immediate .position) ∧ decode .minimal 3 = .ok .inp ∧
  decode .minimal 104 = .ok (.out .immediate) ∧ decode .extended 1005 = .ok (.jnz .position .immediate) ∧
  decode .extended 106 = .ok (.jz .immediate .position) ∧ decode .extended 1107 = .ok (.lt .immediate .immediate) ∧
  decode .extended 8 = .ok (.eq .position .position) ∧ decode .minimal 8 = .error (.illegalOpcode 8) ∧
  decode .extended 20001 = .error (.illegalMode 20001 2 2) ∧ decode .extended (-99) = .error (.illegalOpcode (-99))

/-! ### Load, reset and the invariant -/

/-- R35: the state after `LOAD`, element by element, and that the whole image reads back. (`out_log` is D6, `N` is D3.) -/
def Obligations.LoadGivesTheResetTable : Prop :=
  ∀ (c : Config) (image : List Int) (input : Option Int) (s : State), load c image input = some s →
    s.cfg = c ∧ s.memLen = image.length ∧ (∀ (k : Nat) (h : k < image.length), s.cellAt k = image[k]) ∧
    s.image = image ∧ s.pc = 0 ∧ s.status = .running ∧ s.inp = input ∧ s.out = none ∧ s.outLog = [] ∧ s.fault = none

/-- R190 (D3, D19): at finite `W` a load is refused exactly for a value outside the cell range or an image that is too long;
at `W = INF` never. -/
def Obligations.LoadRefusesExactlyWhatDoesNotFit : Prop :=
  (∀ (b : Nat) (l : IsaLevel) (st : Bool) (image : List Int) (input : Option Int), 16 ≤ b →
    (load ⟨.bits b, l, st⟩ image input = none ↔
      2 ^ (b - 1) < image.length + 4 ∨
      (∃ v ∈ image, v < -2 ^ (b - 1) ∨ 2 ^ (b - 1) - 1 < v) ∨
      ∃ v, input = some v ∧ (v < -2 ^ (b - 1) ∨ 2 ^ (b - 1) - 1 < v))) ∧
  ∀ (l : IsaLevel) (st : Bool) (image : List Int) (input : Option Int), load ⟨.unbounded, l, st⟩ image input ≠ none

/-- The invariant holds of the reset state, the model's own choice of a loaded state (log entry 2). -/
def Obligations.ResetMeetsTheInvariant : Prop := State.reset.Inv

/-- The invariant holds after every accepted `LOAD` (R23, R25, R28 to R31 at R35's values). Its clause on the configuration is
the model's choice and not those rules': `load` refuses a finite `W` below 16 (log entry 10, DEDUCED from R7). The bound on `N`
is D3 (log entry 12), the log of outputs and its clauses are D6 (log entry 13), the tests of image and input D19 (26). -/
def Obligations.LoadMeetsTheInvariant : Prop :=
  ∀ (c : Config) (image : List Int) (input : Option Int) (s : State), load c image input = some s → s.Inv

/-- From EVERY state that meets the invariant, a step gives a state that meets it: every cell, `pc`, the input and the outputs
are `Cell` values (R7, R25, R112: D2), the listed memory stays canonical and inside `N` cells (R23: D3), the latch is the last
entry of the log (R30: D6), strict mode keeps the log to one entry, and a defect is recorded exactly in `Faulted` (R31). -/
def Obligations.StepKeepsTheInvariant : Prop :=
  ∀ s t : State, s.Inv → step s = .next t → t.Inv

/-! ### Memory -/

/-- R43: the checked read, for any integer address. -/
def Obligations.CheckedReadReadsOrFaults : Prop :=
  ∀ (s : State) (cause : Int → FaultCause) (a : Int),
    (a < 0 ∨ (s.memLen : Int) ≤ a → s.memRead cause a = .error (cause a)) ∧
    (0 ≤ a → a < (s.memLen : Int) → s.memRead cause a = .ok (s.cellAt a))

/-- R44: the checked write changes exactly one cell and nothing else, and never extends Memory. -/
def Obligations.CheckedWriteChangesOneCellOrFaults : Prop :=
  ∀ (s : State) (a v : Int),
    (a < 0 ∨ (s.memLen : Int) ≤ a → s.memWrite a v = .error (.writeRange a)) ∧
    (0 ≤ a → a < (s.memLen : Int) → ∃ t, s.memWrite a v = .ok t ∧ s.Stores t a v s.pc)

/-- R52: a store is seen by the very next fetch of that cell: what stood there does not matter. -/
def Obligations.StoreIsSeenByTheNextFetch : Prop :=
  ∀ (s t : State) (a v : Int) (i : Instr), s.status = .running → s.memWrite a v = .ok t →
    decode s.cfg.level v = .ok i → step { t with pc := a } = exec i { t with pc := a }

/-! ### The step -/

/-- R91, R93: where the word at `pc` decodes, the step of a running machine is the decoded instruction, executed with `pc` at
its word; nothing is added around it. -/
def Obligations.StepRunsTheDecodedInstruction : Prop :=
  ∀ (s : State) (w : Int) (i : Instr), s.status = .running → s.Holds s.pc w →
    decode s.cfg.level w = .ok i → step s = exec i s

/-- R92: the fetch is bounds-checked, and whatever value the cell holds is taken as an instruction word: it is executed or
refused by the Decoder. -/
def Obligations.FetchIsCheckedAndTakesAnyWord : Prop :=
  ∀ s : State, s.status = .running →
    (s.pc < 0 ∨ (s.memLen : Int) ≤ s.pc → ∃ t, step s = .next t ∧ s.FaultsTo t (.fetchRange s.pc)) ∧
    (0 ≤ s.pc → s.pc < (s.memLen : Int) →
      (∀ i, decode s.cfg.level (s.cellAt s.pc) = .ok i → step s = exec i s) ∧
      ∀ d, decode s.cfg.level (s.cellAt s.pc) = .error d →
        ∃ t, step s = .next t ∧ s.FaultsTo t (.ofDecode d))

/-- R90: in `Halted` and `Faulted` nothing changes. That the total step answers the state itself is D23. -/
def Obligations.TerminalStatesStepToThemselves : Prop :=
  ∀ s : State, s.status = .halted ∨ s.status = .faulted → step s = .next s

/-- R27: the run status starts at `Running` with `pc = 0`, leaves it only by `HLT` or by a raise, and never leaves a terminal
value by a step. -/
def Obligations.StatusChangesOnlyByHaltAndRaise : Prop :=
  (∀ (c : Config) (image : List Int) (input : Option Int) (s : State), load c image input = some s →
    s.status = .running ∧ s.pc = 0) ∧
  ∀ s t : State, step s = .next t →
    (s.status ≠ .running → t.status = s.status) ∧
    (s.status = .running → t.status = .halted →
      ∃ w, s.Holds s.pc w ∧ decode s.cfg.level w = .ok .hlt) ∧
    (s.status = .running → t.status = .faulted → ∃ c, s.FaultsTo t c)

/-- R173: a `Running` core always has a next step or a fault, and a fault is a step too: no state is without an answer. -/
def Obligations.RunningCoreAlwaysSteps : Prop :=
  ∀ s : State, s.status = .running →
    ∃ t, step s = .next t ∧ (t.status ≠ .faulted ∨ ∃ c, s.FaultsTo t c)

/-- R97 (D12, D13): the pointer advance. Every executed non-jump but `HLT` advances by its width; `HLT` and a raise leave `pc`;
a jump sets it to the resolved target when its condition holds and advances by 3 when it does not. -/
def Obligations.PointerAdvance : Prop :=
  ∀ (i : Instr) (s t : State), exec i s = .next t → s.status = .running →
    (t.status ≠ .running → t.pc = s.pc) ∧
    (t.status = .running → i.opcode ≠ .jnz → i.opcode ≠ .jz → t.pc = s.pc + i.width) ∧
    (t.status = .running → ∀ m0 m1, i = .jnz m0 m1 → ∃ a target, s.OperandIs 0 m0.resolved a ∧
      s.OperandIs 1 m1.resolved target ∧ t.pc = if a = 0 then s.pc + 3 else target) ∧
    (t.status = .running → ∀ m0 m1, i = .jz m0 m1 → ∃ a target, s.OperandIs 0 m0.resolved a ∧
      s.OperandIs 1 m1.resolved target ∧ t.pc = if a = 0 then target else s.pc + 3)

/-! ### What each instruction does -/

/-- R110: `ADD` completes, with the exact sum in the destination, `pc` past its four cells, and nothing else changed. -/
def Obligations.AddStoresTheSum : Prop :=
  ∀ (s : State) (m0 m1 : Mode) (a b dest : Int), s.OperandIs 0 m0.resolved a → s.OperandIs 1 m1.resolved b →
    s.OperandIs 2 .forcedAddress dest → s.cfg.width.inCell (a + b) = true → s.IsCell dest →
    ∃ t, exec (.add m0 m1) s = .next t ∧ s.Stores t dest (a + b) (s.pc + 4)

/-- R111: `MUL` completes, with the exact product in the destination. -/
def Obligations.MulStoresTheProduct : Prop :=
  ∀ (s : State) (m0 m1 : Mode) (a b dest : Int), s.OperandIs 0 m0.resolved a → s.OperandIs 1 m1.resolved b →
    s.OperandIs 2 .forcedAddress dest → s.cfg.width.inCell (a * b) = true → s.IsCell dest →
    ∃ t, exec (.mul m0 m1) s = .next t ∧ s.Stores t dest (a * b) (s.pc + 4)

/-- R120: `IN` completes, with the input in the destination; the input itself is not consumed (D16). -/
def Obligations.InStoresTheInput : Prop :=
  ∀ (s : State) (x dest : Int), s.OperandIs 0 .forcedAddress dest → s.inp = some x → s.IsCell dest →
    ∃ t, exec .inp s = .next t ∧ s.Stores t dest x (s.pc + 2)

/-- R121: `OUT` completes, without strict mode always (D5) and in strict mode when nothing was emitted before: the latch is
replaced, the value appended to the log (D6), `pc` past its two cells, and nothing else changed, memory included. -/
def Obligations.OutEmitsItsOperand : Prop :=
  ∀ (s : State) (m0 : Mode) (v : Int), s.OperandIs 0 m0.resolved v →
    s.cfg.strictSingleOutput = false ∨ s.out = none →
    exec (.out m0) s = .next { s with out := some v, outLog := s.outLog ++ [v], pc := s.pc + 2 }

/-- R130: `JNZ` completes and changes nothing but `pc`: the target if its operand is not 0 (unchecked: D12), else three on. -/
def Obligations.JnzBranchesOnNonzero : Prop :=
  ∀ (s : State) (m0 m1 : Mode) (a target : Int), s.OperandIs 0 m0.resolved a → s.OperandIs 1 m1.resolved target →
    (a ≠ 0 → exec (.jnz m0 m1) s = .next { s with pc := target }) ∧
    (a = 0 → exec (.jnz m0 m1) s = .next { s with pc := s.pc + 3 })

/-- R131: `JZ` completes and changes nothing but `pc`: the target if its operand is 0, else three on. -/
def Obligations.JzBranchesOnZero : Prop :=
  ∀ (s : State) (m0 m1 : Mode) (a target : Int), s.OperandIs 0 m0.resolved a → s.OperandIs 1 m1.resolved target →
    (a = 0 → exec (.jz m0 m1) s = .next { s with pc := target }) ∧
    (a ≠ 0 → exec (.jz m0 m1) s = .next { s with pc := s.pc + 3 })

/-- R140: `LT` completes, with 1 in the destination if the first operand is less (signed), else 0. -/
def Obligations.LtStoresTheComparison : Prop :=
  ∀ (s : State) (m0 m1 : Mode) (a b dest : Int), s.OperandIs 0 m0.resolved a → s.OperandIs 1 m1.resolved b →
    s.OperandIs 2 .forcedAddress dest → s.IsCell dest →
    ∃ t, exec (.lt m0 m1) s = .next t ∧ s.Stores t dest (if a < b then 1 else 0) (s.pc + 4)

/-- R141: `EQ` completes, with 1 in the destination if the operands are equal, else 0. -/
def Obligations.EqStoresTheComparison : Prop :=
  ∀ (s : State) (m0 m1 : Mode) (a b dest : Int), s.OperandIs 0 m0.resolved a → s.OperandIs 1 m1.resolved b →
    s.OperandIs 2 .forcedAddress dest → s.IsCell dest →
    ∃ t, exec (.eq m0 m1) s = .next t ∧ s.Stores t dest (if a = b then 1 else 0) (s.pc + 4)

/-- R150: `HLT` always completes: the status is `Halted` and nothing else changes, `pc` included (D13). -/
def Obligations.HltHaltsInPlace : Prop :=
  ∀ s : State, exec .hlt s = .next { s with status := .halted }

/-! ### Faults -/

/-- R98 item 4, R100 (D10, D11): operands are resolved in ascending order, each one completely, needed or not; the first fault
condition met is the fault taken, before any effect and any other check. It holds of all nine instructions: of an untaken
jump's target too. -/
def Obligations.OperandFaultsAreTakenInOrder : Prop :=
  ∀ (i : Instr) (s : State) (c : FaultCause), s.FirstOperandFault i.modes c →
    ∃ t, exec i s = .next t ∧ s.FaultsTo t c

/-- R112 (D2): a sum or product that is no `Cell` value is a fault, whether or not the destination is an address (R98: D10). -/
def Obligations.OverflowIsAFault : Prop :=
  ∀ (s : State) (m0 m1 : Mode) (a b dest : Int), s.OperandIs 0 m0.resolved a → s.OperandIs 1 m1.resolved b →
    s.OperandIs 2 .forcedAddress dest →
    (s.cfg.width.inCell (a + b) = false → ∃ t, exec (.add m0 m1) s = .next t ∧ s.FaultsTo t (.overflow 1)) ∧
    (s.cfg.width.inCell (a * b) = false → ∃ t, exec (.mul m0 m1) s = .next t ∧ s.FaultsTo t (.overflow 2))

/-- R112: at `W = INF` no step overflows. -/
def Obligations.UnboundedCellsNeverOverflow : Prop :=
  ∀ s t : State, s.cfg.width = .unbounded → s.status = .running → step s = .next t → t.status = .faulted →
    ∀ r, t.fault = some r → r.cause.faultClass ≠ .arithmeticOverflow

/-- R96 (D10): a write target outside Memory is a fault, found after the operation; nothing is written. -/
def Obligations.WriteTargetOutsideMemoryIsAFault : Prop :=
  ∀ (s : State) (dest : Int), ¬ s.IsCell dest →
    (∀ x, s.OperandIs 0 .forcedAddress dest → s.inp = some x →
      ∃ t, exec .inp s = .next t ∧ s.FaultsTo t (.writeRange dest)) ∧
    ∀ (m0 m1 : Mode) (a b : Int), s.OperandIs 0 m0.resolved a → s.OperandIs 1 m1.resolved b →
      s.OperandIs 2 .forcedAddress dest →
      (s.cfg.width.inCell (a + b) = true →
        ∃ t, exec (.add m0 m1) s = .next t ∧ s.FaultsTo t (.writeRange dest)) ∧
      (s.cfg.width.inCell (a * b) = true →
        ∃ t, exec (.mul m0 m1) s = .next t ∧ s.FaultsTo t (.writeRange dest)) ∧
      (∃ t, exec (.lt m0 m1) s = .next t ∧ s.FaultsTo t (.writeRange dest)) ∧
      ∃ t, exec (.eq m0 m1) s = .next t ∧ s.FaultsTo t (.writeRange dest)

/-- R120 (D17, D10): `IN` without an input faults, at both levels, whether or not the destination is an address. -/
def Obligations.InWithoutInputIsAFault : Prop :=
  ∀ (s : State) (dest : Int), s.OperandIs 0 .forcedAddress dest → s.inp = none →
    ∃ t, exec .inp s = .next t ∧ s.FaultsTo t .noInput

/-- R121 (D5, D18): under `STRICT_SINGLE_OUTPUT` a second `OUT` faults and its value is not emitted. -/
def Obligations.SecondOutputIsAFaultWhenStrict : Prop :=
  ∀ (s : State) (m0 : Mode) (v first : Int), s.OperandIs 0 m0.resolved v →
    s.cfg.strictSingleOutput = true → s.out = some first →
    ∃ t, exec (.out m0) s = .next t ∧ s.FaultsTo t (.secondOutput v)

/-- R161, column "raised by" (D15): an executing instruction raises only its own causes, and a raise is precise (R99: D14). -/
def Obligations.EachOpcodeRaisesOnlyItsCauses : Prop :=
  ∀ (i : Instr) (s t : State), exec i s = .next t → s.status ≠ .faulted → t.status = .faulted →
    ∃ c, s.FaultsTo t c ∧ c.code ∈ executionCauses i.opcode

/-! ### The whole machine -/

/-- R36: what an instruction leaves alone, completed or faulted. A writing opcode changes at most the cell its write-target
operand names, any other opcode no cell; only `OUT` touches the output; nothing touches `N`, the input or the configuration. -/
def Obligations.FrameOfEveryInstruction : Prop :=
  ∀ (i : Instr) (s t : State), exec i s = .next t →
    t.cfg = s.cfg ∧ t.memLen = s.memLen ∧ t.inp = s.inp ∧
    (∀ k, i.opcode.writeTarget = some k →
      ∀ a, 0 ≤ a → a ≠ s.cellAt (s.pc + 1 + k) → t.cellAt a = s.cellAt a) ∧
    (i.opcode.writeTarget = none → ∀ a, 0 ≤ a → t.cellAt a = s.cellAt a) ∧
    (i.opcode ≠ .out → t.out = s.out ∧ t.outLog = s.outLog) ∧
    (t.status = s.status ∨ t.status = .faulted ∨ i = .hlt ∧ t.status = .halted) ∧
    (t.fault = s.fault ∨ t.status = .faulted)

/-- From R29: the output latch is empty after `LOAD`, written only by `OUT`, which sets it to its operand's value, read by no other
instruction, and handed back at the end of a run. -/
def Obligations.OutputLatchIsOuts : Prop :=
  (∀ (c : Config) (image : List Int) (input : Option Int) (s : State), load c image input = some s → s.out = none) ∧
  (∀ (m0 : Mode) (s t : State), exec (.out m0) s = .next t →
    (∃ c, s.FaultsTo t c) ∨ ∃ v, s.OperandIs 0 m0.resolved v ∧ t.out = some v) ∧
  (∀ (i : Instr) (s t : State) (x : Option Int), i.opcode ≠ .out → exec i s = .next t →
    t.out = s.out ∧ exec i { s with out := x } = .next { t with out := x }) ∧
  ∀ s : State, s.status = .halted → s.readBack = some (.halted s.out s.outLog s.image s.pc)

/-- R28, R36: the input is read by `IN` alone: any other instruction does the same under every input, and leaves it. -/
def Obligations.InputIsReadOnlyByIn : Prop :=
  ∀ (s t : State) (w : Int) (i : Instr) (x : Option Int), s.status = .running → s.Holds s.pc w →
    decode s.cfg.level w = .ok i → i.opcode ≠ .inp → step s = .next t →
    step { s with inp := x } = .next { t with inp := x }

/-- R36: nothing reads the output log or the defect record: a step does the same whatever they hold. -/
def Obligations.LogAndDefectAreNeverRead : Prop :=
  ∀ (s t : State) (log : List Int) (f : Option FaultRecord), s.status = .running → step s = .next t →
    ∃ t', step { s with outLog := log, fault := f } = .next t' ∧
      t = { t' with outLog := t.outLog, fault := t.fault }

/-- R30 (D6): the log only grows, by one value at a time, and only when an `OUT` completes; that value is then in the latch. -/
def Obligations.OutputLogOnlyGrows : Prop :=
  ∀ s t : State, step s = .next t →
    (t.outLog = s.outLog ∧ t.out = s.out) ∨
    ∃ w m0 v, s.Holds s.pc w ∧ decode s.cfg.level w = .ok (.out m0) ∧ s.OperandIs 0 m0.resolved v ∧
      t.outLog = s.outLog ++ [v] ∧ t.out = some v

/-- D4, D5, D1: a step that does not fault is the same step under every configuration that admits more (a level more, the
output check off, wider cells). -/
def Obligations.WiderConfigurationTakesTheSameStep : Prop :=
  ∀ (s t : State) (c' : Config), s.cfg.Within c' → step s = .next t → t.status ≠ .faulted →
    step { s with cfg := c' } = .next { t with cfg := c' }

/-- D4: "a program that runs fault-free at `MINIMAL` runs identically at `EXTENDED`", and so for the other two parameters: a run
that halts ends in the same state under every configuration that admits more. -/
def Obligations.WiderConfigurationRefinesHaltingRuns : Prop :=
  ∀ (k : Nat) (s t : State) (c' : Config), s.cfg.Within c' → runToEnd k s = some t → t.status = .halted →
    runToEnd k { s with cfg := c' } = some { t with cfg := c' }

/-- R193, R197 with R24, R28, R32: a run from `LOAD` that ends, ends `Halted` without a defect or `Faulted` with one that
points at `pc`; its configuration, memory length and input are those of the load, and the invariant holds (its clause on the
configuration is the model's choice, log entry 10, DEDUCED; its clauses on `N` and on the log are D3 and D6; the
precise, recorded fault is D14 and D15). -/
def Obligations.LoadedRunsEndHaltedOrFaulted : Prop :=
  ∀ (c : Config) (image : List Int) (input : Option Int) (k : Nat) (s t : State),
    load c image input = some s → runToEnd k s = some t →
    t.Inv ∧ t.cfg = c ∧ t.memLen = image.length ∧ t.inp = input ∧
    (t.status = .halted ∧ t.fault = none ∨
     t.status = .faulted ∧ ∃ r, t.fault = some r ∧ r.fpc = t.pc)

/-- R196 (D21): the number of steps a harness allows is no part of the machine: a run that ends has one end, whatever larger
number is allowed. -/
def Obligations.EndOfARunDoesNotDependOnTheStepLimit : Prop :=
  ∀ (k j : Nat) (s t u : State), runToEnd k s = some t → (k ≤ j → runToEnd j s = some t) ∧
    (runToEnd j s = some u → u = t)

/-- R194: a taken jump to itself is a run without end: the machine steps to the very same state and never reaches an end. -/
def Obligations.JumpToItselfNeverEnds : Prop :=
  ∀ (s : State) (w : Int) (m0 m1 : Mode) (a : Int), s.status = .running → s.Holds s.pc w →
    s.OperandIs 0 m0.resolved a → s.OperandIs 1 m1.resolved s.pc →
    (decode s.cfg.level w = .ok (.jnz m0 m1) ∧ a ≠ 0 ∨ decode s.cfg.level w = .ok (.jz m0 m1) ∧ a = 0) →
    step s = .next s ∧ ∀ k, runToEnd k s = none

/-! ### The host's fetch word -/

/-- Log entry 8 (the model's choice): the word of bits that `decodeTableWord` decodes is what the next step runs, once it is
placed; at the default configuration of R7. -/
def Obligations.FetchWordRunsTheTableInstruction : Prop :=
  ∀ (s : State) (nbits w : Nat) (i : Instr), s.cfg = Config.default .extended → decodeTableWord nbits w = some i →
    step (s.withFetchWord nbits w) = exec i (s.withFetchWord nbits w)
end

