-- ==== Sys2Proof/Laws/Decode.lean ====
section
/-!
SUPPORT. Small lemmas of the Decoder's parts.
-/
namespace Sys2Proof

/-- A mode digit is read as Position exactly when it is 0. -/
theorem modeAt_eq_position_iff (w : Int) (k : Nat) : modeAt w k = .ok .position ↔ dig w (2 + k) = 0 := by
  unfold modeAt
  split
  · simp_all
  · split <;> simp_all

/-- A mode digit is read as Immediate exactly when it is 1. -/
theorem modeAt_eq_immediate_iff (w : Int) (k : Nat) : modeAt w k = .ok .immediate ↔ dig w (2 + k) = 1 := by
  unfold modeAt
  split
  · simp_all
  · split <;> simp_all

/-- The digit of the mode that was read. -/
theorem modeAt_eq_ok_iff (w : Int) (k : Nat) (m : Mode) : modeAt w k = .ok m ↔ dig w (2 + k) = m.digit := by
  cases m with
  | position => exact modeAt_eq_position_iff w k
  | immediate => exact modeAt_eq_immediate_iff w k

/-- The mode check fails exactly on the digits that are neither 0 nor 1. -/
theorem modeAt_eq_error_iff (w : Int) (k : Nat) (d : DecodeFault) :
    modeAt w k = .error d ↔ dig w (2 + k) ≠ 0 ∧ dig w (2 + k) ≠ 1 ∧ d = .illegalMode w k (dig w (2 + k)) := by
  unfold modeAt
  by_cases h0 : dig w (2 + k) = 0
  · simp [h0]
  · by_cases h1 : dig w (2 + k) = 1
    · simp [h1]
    · simp [h0, h1, eq_comm]

/-- The digits the three mode positions are. -/
theorem dig_two (w : Int) : dig w 2 = w / 100 % 10 := rfl
theorem dig_three (w : Int) : dig w 3 = w / 1000 % 10 := rfl
theorem dig_four (w : Int) : dig w 4 = w / 10000 % 10 := rfl

/-- An opcode is recognised by its number. -/
theorem Opcode.number_injective (o p : Opcode) (h : o.number = p.number) : o = p := by
  cases o <;> cases p <;> first | rfl | (exact absurd h (by decide))

/-- Exactly when an opcode is extracted from a word (R61, R67, R69). -/
theorem decodeOpcode_eq_ok_iff (l : IsaLevel) (w : Int) (o : Opcode) :
    decodeOpcode l w = .ok o ↔ 0 ≤ w ∧ w % 100 = o.number ∧ o ∈ l.recognised := by
  unfold decodeOpcode
  by_cases hw : w < 0
  · simp only [hw, if_true, reduceCtorEq, false_iff]
    omega
  · simp only [hw, if_false]
    cases hf : l.recognised.find? (fun o => o.number == w % 100) with
    | some p =>
      have hp := List.find?_some hf
      have hm := List.mem_of_find?_eq_some hf
      simp only [beq_iff_eq] at hp
      constructor
      · intro h
        obtain rfl : p = o := by simpa using h
        exact ⟨by omega, hp.symm, hm⟩
      · rintro ⟨-, hn, -⟩
        rw [Opcode.number_injective p o (hp.trans hn)]
    | none =>
      simp only [reduceCtorEq, false_iff]
      rintro ⟨-, hn, hm⟩
      have := List.find?_eq_none.mp hf o hm
      simp [hn] at this

/-- Every opcode fault names the word. -/
theorem decodeOpcode_eq_error (l : IsaLevel) (w : Int) (d : DecodeFault) (h : decodeOpcode l w = .error d) :
    d = .illegalOpcode w := by
  unfold decodeOpcode at h
  split at h
  · simpa using h.symm
  · split at h
    · simp at h
    · simpa using h.symm

end Sys2Proof
end

