-- ==== Sys2Proof/Laws/State.lean ====
section
/-!
SUPPORT. What each update of the state does to each field, true by rfl; cited by simp instead of unfolding an update.
-/
namespace Sys2Proof.Machine

@[simp] theorem State.raise_cfg (s : State) (c : FaultCause) : (s.raise c).cfg = s.cfg := rfl
@[simp] theorem State.raise_memLen (s : State) (c : FaultCause) : (s.raise c).memLen = s.memLen := rfl
@[simp] theorem State.raise_mem (s : State) (c : FaultCause) : (s.raise c).mem = s.mem := rfl
@[simp] theorem State.raise_pc (s : State) (c : FaultCause) : (s.raise c).pc = s.pc := rfl
@[simp] theorem State.raise_status (s : State) (c : FaultCause) : (s.raise c).status = .faulted := rfl
@[simp] theorem State.raise_inp (s : State) (c : FaultCause) : (s.raise c).inp = s.inp := rfl
@[simp] theorem State.raise_out (s : State) (c : FaultCause) : (s.raise c).out = s.out := rfl
@[simp] theorem State.raise_outLog (s : State) (c : FaultCause) : (s.raise c).outLog = s.outLog := rfl
@[simp] theorem State.raise_fault (s : State) (c : FaultCause) : (s.raise c).fault = some { cause := c, fpc := s.pc } := rfl

@[simp] theorem State.advance_cfg (s : State) (n : Nat) : (s.advance n).cfg = s.cfg := rfl
@[simp] theorem State.advance_memLen (s : State) (n : Nat) : (s.advance n).memLen = s.memLen := rfl
@[simp] theorem State.advance_mem (s : State) (n : Nat) : (s.advance n).mem = s.mem := rfl
@[simp] theorem State.advance_pc (s : State) (n : Nat) : (s.advance n).pc = s.pc + 1 + (n : Int) := rfl
@[simp] theorem State.advance_status (s : State) (n : Nat) : (s.advance n).status = s.status := rfl
@[simp] theorem State.advance_inp (s : State) (n : Nat) : (s.advance n).inp = s.inp := rfl
@[simp] theorem State.advance_out (s : State) (n : Nat) : (s.advance n).out = s.out := rfl
@[simp] theorem State.advance_outLog (s : State) (n : Nat) : (s.advance n).outLog = s.outLog := rfl
@[simp] theorem State.advance_fault (s : State) (n : Nat) : (s.advance n).fault = s.fault := rfl

@[simp] theorem State.jumpTo_cfg (s : State) (target : Int) : (s.jumpTo target).cfg = s.cfg := rfl
@[simp] theorem State.jumpTo_memLen (s : State) (target : Int) : (s.jumpTo target).memLen = s.memLen := rfl
@[simp] theorem State.jumpTo_mem (s : State) (target : Int) : (s.jumpTo target).mem = s.mem := rfl
@[simp] theorem State.jumpTo_pc (s : State) (target : Int) : (s.jumpTo target).pc = target := rfl
@[simp] theorem State.jumpTo_status (s : State) (target : Int) : (s.jumpTo target).status = s.status := rfl
@[simp] theorem State.jumpTo_inp (s : State) (target : Int) : (s.jumpTo target).inp = s.inp := rfl
@[simp] theorem State.jumpTo_out (s : State) (target : Int) : (s.jumpTo target).out = s.out := rfl
@[simp] theorem State.jumpTo_outLog (s : State) (target : Int) : (s.jumpTo target).outLog = s.outLog := rfl
@[simp] theorem State.jumpTo_fault (s : State) (target : Int) : (s.jumpTo target).fault = s.fault := rfl

@[simp] theorem State.raise_cellAt (s : State) (c : FaultCause) (a : Int) : (s.raise c).cellAt a = s.cellAt a := rfl
@[simp] theorem State.advance_cellAt (s : State) (n : Nat) (a : Int) : (s.advance n).cellAt a = s.cellAt a := rfl
@[simp] theorem State.jumpTo_cellAt (s : State) (target : Int) (a : Int) : (s.jumpTo target).cellAt a = s.cellAt a := rfl

@[simp] theorem State.settle_ok (s t : State) : s.settle (.ok t) = .next t := rfl
@[simp] theorem State.settle_error (s : State) (c : FaultCause) : s.settle (.error c) = .next (s.raise c) := rfl

@[simp] theorem Mode.resolved_position : Mode.position.resolved = .position := rfl
@[simp] theorem Mode.resolved_immediate : Mode.immediate.resolved = .immediate := rfl

end Sys2Proof.Machine
end

