-- ==== Sys2Proof/Laws/Memory.lean ====
section
/-!
SUPPORT. The laws of memory: a read after a write to the same address gives the value written, a write leaves every other
address alone, and every memory operation keeps the canonical form.
-/
namespace Sys2Proof.Machine

/-! ### Reading what was written -/

theorem Memory.lookup_filter_ne (m : List (Nat × Cell)) (a b : Nat) :
    Memory.lookup (m.filter fun e => e.1 != a) b = if b = a then 0 else Memory.lookup m b := by
  induction m with
  | nil => simp [Memory.lookup]
  | cons e rest ih =>
    obtain ⟨k, x⟩ := e
    by_cases hk : k = a
    · subst hk
      by_cases hb : b = k
      · simp_all
      · have : k ≠ b := fun h => hb h.symm
        simp_all [Memory.lookup]
    · by_cases hb : b = a
      · subst hb
        simp_all [Memory.lookup]
      · simp_all [Memory.lookup]

theorem Memory.lookup_insert (m : List (Nat × Cell)) (a b : Nat) (v : Int) (h : ∀ e ∈ m, e.1 ≠ a) :
    Memory.lookup (Memory.insert a v m) b = if b = a then v else Memory.lookup m b := by
  induction m with
  | nil =>
    by_cases hb : b = a
    · simp [Memory.insert, Memory.lookup, hb]
    · simp [Memory.insert, Memory.lookup, hb, Ne.symm hb]
  | cons e rest ih =>
    obtain ⟨k, x⟩ := e
    have hk : k ≠ a := h (k, x) (by simp)
    have ih' := ih fun e he => h e (by simp [he])
    by_cases hlt : a < k
    · by_cases hb : b = a
      · simp [Memory.insert, Memory.lookup, hlt, hb]
      · simp [Memory.insert, Memory.lookup, hlt, hb, Ne.symm hb]
    · by_cases hb : b = a
      · subst hb
        simp [Memory.insert, Memory.lookup, hlt, hk, ih']
      · simp [Memory.insert, Memory.lookup, hlt, hb, ih']

/-- Read after write, at the address written and at any other; of every listed memory, canonical or not. -/
theorem Memory.lookup_put (m : List (Nat × Cell)) (a b : Nat) (v : Int) :
    Memory.lookup (Memory.put m a v) b = if b = a then v else Memory.lookup m b := by
  unfold Memory.put
  by_cases hv : v = 0
  · simp only [hv, if_true, Memory.lookup_filter_ne]
  · simp only [hv, if_false]
    rw [Memory.lookup_insert _ _ _ _ (by intro e he; simpa using (List.mem_filter.mp he).2), Memory.lookup_filter_ne]
    by_cases hb : b = a <;> simp [hb]

/-! ### The canonical form -/

/-- The canonical form spelt out. -/
theorem Memory.wf_iff (n : Nat) (m : List (Nat × Cell)) :
    Memory.wf n m = true ↔ Memory.rising m = true ∧ ∀ e ∈ m, e.1 < n ∧ e.2 ≠ 0 := by
  simp [Memory.wf]

theorem Memory.rising_cons (k : Nat) (x : Int) (rest : List (Nat × Cell)) :
    Memory.rising ((k, x) :: rest) = true ↔ (∀ e ∈ rest, k < e.1) ∧ Memory.rising rest = true := by
  simp [Memory.rising]

theorem Memory.rising_filter (p : Nat × Cell → Bool) (m : List (Nat × Cell)) (h : Memory.rising m = true) :
    Memory.rising (m.filter p) = true := by
  induction m with
  | nil => rfl
  | cons e rest ih =>
    obtain ⟨k, x⟩ := e
    obtain ⟨hlt, hr⟩ := (Memory.rising_cons k x rest).mp h
    by_cases hp : p (k, x) = true
    · rw [List.filter_cons_of_pos hp, Memory.rising_cons]
      exact ⟨fun e he => hlt e (List.mem_filter.mp he).1, ih hr⟩
    · rw [List.filter_cons_of_neg hp]
      exact ih hr

theorem Memory.mem_insert (a : Nat) (v : Int) (m : List (Nat × Cell)) (e : Nat × Cell) :
    e ∈ Memory.insert a v m ↔ e = (a, v) ∨ e ∈ m := by
  induction m with
  | nil => simp [Memory.insert]
  | cons d rest ih =>
    obtain ⟨k, x⟩ := d
    by_cases hlt : a < k
    · simp [Memory.insert, hlt]
    · simp only [Memory.insert, hlt, if_false, List.mem_cons, ih]
      tauto

theorem Memory.rising_insert (a : Nat) (v : Int) (m : List (Nat × Cell)) (hne : ∀ e ∈ m, e.1 ≠ a)
    (h : Memory.rising m = true) : Memory.rising (Memory.insert a v m) = true := by
  induction m with
  | nil => rfl
  | cons d rest ih =>
    obtain ⟨k, x⟩ := d
    obtain ⟨hlt, hr⟩ := (Memory.rising_cons k x rest).mp h
    by_cases hak : a < k
    · simp only [Memory.insert, hak, if_true]
      rw [Memory.rising_cons]
      refine ⟨?_, h⟩
      intro e he
      rcases List.mem_cons.mp he with rfl | he
      · exact hak
      · exact lt_trans hak (hlt e he)
    · simp only [Memory.insert, hak, if_false]
      rw [Memory.rising_cons]
      refine ⟨?_, ih (fun e he => hne e (by simp [he])) hr⟩
      intro e he
      rcases (Memory.mem_insert a v rest e).mp he with rfl | he
      · have := hne (k, x) (by simp)
        simp only at this ⊢
        omega
      · exact hlt e he

/-- What a write lists was listed before, or is the pair written. -/
theorem Memory.mem_put (m : List (Nat × Cell)) (a : Nat) (v : Int) (e : Nat × Cell) (h : e ∈ Memory.put m a v) :
    (e = (a, v) ∧ v ≠ 0) ∨ e ∈ m := by
  unfold Memory.put at h
  by_cases hv : v = 0
  · simp only [hv, if_true] at h
    exact .inr (List.mem_filter.mp h).1
  · simp only [hv, if_false] at h
    rcases (Memory.mem_insert a v _ e).mp h with h | h
    · exact .inl ⟨h, hv⟩
    · exact .inr (List.mem_filter.mp h).1

/-- A write inside the memory keeps the canonical form. -/
theorem Memory.put_wf (n : Nat) (m : List (Nat × Cell)) (a : Nat) (v : Int) (ha : a < n) (h : Memory.wf n m = true) :
    Memory.wf n (Memory.put m a v) = true := by
  rw [Memory.wf_iff] at h ⊢
  refine ⟨?_, ?_⟩
  · unfold Memory.put
    have hf := Memory.rising_filter (fun e => e.1 != a) m h.1
    by_cases hv : v = 0
    · simpa only [hv, if_true] using hf
    · simp only [hv, if_false]
      exact Memory.rising_insert a v _ (by intro e he; simpa using (List.mem_filter.mp he).2) hf
  · intro e he
    rcases Memory.mem_put m a v e he with ⟨rfl, hv⟩ | he
    · exact ⟨ha, hv⟩
    · exact h.2 e he

/-! ### Loading an image -/

theorem Memory.mem_ofImage (image : List Cell) (a : Nat) (e : Nat × Cell) (h : e ∈ Memory.ofImage a image) :
    a ≤ e.1 ∧ e.1 < a + image.length ∧ e.2 ≠ 0 ∧ e.2 ∈ image := by
  induction image generalizing a with
  | nil => simp [Memory.ofImage] at h
  | cons v rest ih =>
    simp only [List.length_cons, List.mem_cons]
    by_cases hv : v = 0
    · simp only [Memory.ofImage, hv, if_true] at h
      have := ih (a + 1) h
      exact ⟨by omega, by omega, this.2.2.1, .inr this.2.2.2⟩
    · simp only [Memory.ofImage, hv, if_false, List.mem_cons] at h
      rcases h with rfl | h
      · exact ⟨by simp, by simp, hv, .inl rfl⟩
      · have := ih (a + 1) h
        exact ⟨by omega, by omega, this.2.2.1, .inr this.2.2.2⟩

theorem Memory.ofImage_rising (image : List Cell) (a : Nat) : Memory.rising (Memory.ofImage a image) = true := by
  induction image generalizing a with
  | nil => rfl
  | cons v rest ih =>
    by_cases hv : v = 0
    · simp only [Memory.ofImage, hv, if_true]
      exact ih (a + 1)
    · simp only [Memory.ofImage, hv, if_false]
      rw [Memory.rising_cons]
      exact ⟨fun e he => (Memory.mem_ofImage rest (a + 1) e he).1, ih (a + 1)⟩

/-- A loaded image is in canonical form. -/
theorem Memory.ofImage_wf (image : List Cell) : Memory.wf image.length (Memory.ofImage 0 image) = true := by
  rw [Memory.wf_iff]
  refine ⟨Memory.ofImage_rising image 0, fun e he => ?_⟩
  have := Memory.mem_ofImage image 0 e he
  exact ⟨by omega, this.2.2.1⟩

theorem Memory.lookup_of_lt (m : List (Nat × Cell)) (b : Nat) (h : ∀ e ∈ m, b < e.1) : Memory.lookup m b = 0 := by
  induction m with
  | nil => rfl
  | cons d rest ih =>
    obtain ⟨k, x⟩ := d
    have hk : k ≠ b := by have := h (k, x) (by simp); simp only at this; omega
    simp only [Memory.lookup, hk, if_false]
    exact ih fun e he => h e (by simp [he])

/-- A loaded image reads back, cell for cell. -/
theorem Memory.lookup_ofImage (image : List Cell) (a k : Nat) :
    Memory.lookup (Memory.ofImage a image) (a + k) = image.getD k 0 := by
  induction image generalizing a k with
  | nil => simp [Memory.ofImage, Memory.lookup]
  | cons v rest ih =>
    cases k with
    | zero =>
      by_cases hv : v = 0
      · simp only [Memory.ofImage, hv, if_true]
        simpa using Memory.lookup_of_lt _ _ fun e he => by
          have := (Memory.mem_ofImage rest (a + 1) e he).1
          omega
      · simp [Memory.ofImage, hv, Memory.lookup]
    | succ k =>
      have step : a + (k + 1) = a + 1 + k := by omega
      by_cases hv : v = 0
      · simp only [Memory.ofImage, hv, if_true, step, ih]
        simp
      · have hne : ¬ a = a + 1 + k := by omega
        simp only [Memory.ofImage, hv, if_false, step, Memory.lookup, hne, ih]
        simp

end Sys2Proof.Machine
end

