-- ==== Sys2Proof/Laws/Ops.lean ====
section
/-!
SUPPORT. One lemma per shared operation that says everything it can do, over the words of Safety.lean; the provers cite these
and do not unfold the operations.
-/
namespace Sys2Proof.Machine

/-! ### Bounds, read, write -/

theorem State.inBounds_iff (s : State) (a : Int) : s.inBounds a = true ↔ s.IsCell a := by
  simp [State.inBounds, State.IsCell]

theorem State.inBounds_eq_false_iff (s : State) (a : Int) : s.inBounds a = false ↔ ¬ s.IsCell a := by
  rw [← State.inBounds_iff]
  simp

/-- A checked read answers exactly the content of a cell of Memory. -/
theorem State.memRead_eq_ok_iff (s : State) (cause : Int → FaultCause) (a v : Int) :
    s.memRead cause a = .ok v ↔ s.Holds a v := by
  unfold State.memRead State.Holds
  rw [← State.inBounds_iff]
  by_cases h : s.inBounds a = true <;> simp [h]

/-- A checked read fails exactly outside Memory, under the caller's cause. -/
theorem State.memRead_eq_error_iff (s : State) (cause : Int → FaultCause) (a : Int) (c : FaultCause) :
    s.memRead cause a = .error c ↔ ¬ s.IsCell a ∧ c = cause a := by
  unfold State.memRead
  rw [← State.inBounds_iff]
  by_cases h : s.inBounds a = true
  · simp [h]
  · simp [h, eq_comm]

/-- Everything a checked write can do. -/
theorem State.memWrite_eq_ok_iff (s t : State) (a v : Int) :
    s.memWrite a v = .ok t ↔ s.IsCell a ∧ t = { s with mem := Memory.put s.mem a.toNat v } := by
  unfold State.memWrite
  rw [← State.inBounds_iff]
  by_cases h : s.inBounds a = true
  · simp [h, eq_comm]
  · simp [h]

theorem State.memWrite_eq_error_iff (s : State) (a v : Int) (c : FaultCause) :
    s.memWrite a v = .error c ↔ ¬ s.IsCell a ∧ c = .writeRange a := by
  unfold State.memWrite
  rw [← State.inBounds_iff]
  by_cases h : s.inBounds a = true
  · simp [h]
  · simp [h, eq_comm]

/-- What a store followed by a new `pc` leaves: the frame of every storing instruction. -/
theorem State.stores_put (s : State) (dest v next : Int) (h : s.IsCell dest) :
    s.Stores { s with mem := Memory.put s.mem dest.toNat v, pc := next } dest v next where
  stored := by simp [State.cellAt, Memory.lookup_put]
  others := by
    intro a ha hne
    have : a.toNat ≠ dest.toNat := by
      have := h.1
      omega
    simp [State.cellAt, Memory.lookup_put, this]
  pc := rfl
  memLen := rfl
  cfg := rfl
  status := rfl
  inp := rfl
  out := rfl
  outLog := rfl
  fault := rfl

/-! ### Fetch -/

theorem State.fetchWord_eq_ok_iff (s : State) (w : Int) : s.fetchWord = .ok w ↔ s.Holds s.pc w :=
  State.memRead_eq_ok_iff s _ _ _

theorem State.fetchWord_eq_error_iff (s : State) (c : FaultCause) :
    s.fetchWord = .error c ↔ ¬ s.IsCell s.pc ∧ c = .fetchRange s.pc :=
  State.memRead_eq_error_iff s _ _ _

/-! ### Fault entry -/

theorem State.raise_faultsTo (s : State) (c : FaultCause) : s.FaultsTo (s.raise c) c := rfl

theorem State.faultsTo_iff (s t : State) (c : FaultCause) : s.FaultsTo t c ↔ t = s.raise c := Iff.rfl

/-- A settled step always answers a state: the result of its effects, or fault entry. -/
theorem State.settle_eq_next_iff (s t : State) (r : Except FaultCause State) :
    s.settle r = .next t ↔ r = .ok t ∨ ∃ c, r = .error c ∧ t = s.raise c := by
  cases r with
  | ok u => simp
  | error c => simp [eq_comm]

/-- Every cause has one of the nine codes, and its class is the class of that code. -/
theorem FaultCause.code_range (c : FaultCause) : 1 ≤ c.code ∧ c.code ≤ 9 := by
  cases c <;> simp [FaultCause.code]

/-! ### Operands -/

theorem State.operandCell_eq_ok_iff (s : State) (k : Nat) (v : Int) :
    s.operandCell k = .ok v ↔ s.Holds (s.pc + 1 + k) v :=
  State.memRead_eq_ok_iff s _ _ _

theorem State.operandCell_eq_error_iff (s : State) (k : Nat) (c : FaultCause) :
    s.operandCell k = .error c ↔ ¬ s.IsCell (s.pc + 1 + k) ∧ c = .operandFetchRange (s.pc + 1 + k) :=
  State.memRead_eq_error_iff s _ _ _

/-- A value operand answers exactly what it resolves to. -/
theorem State.valueOperand_eq_ok_iff (s : State) (k : Nat) (m : Mode) (v : Int) :
    s.valueOperand k m = .ok v ↔ s.OperandIs k m.resolved v := by
  cases m with
  | immediate => exact State.operandCell_eq_ok_iff s k v
  | position =>
    simp only [State.valueOperand, Mode.resolved_position, State.OperandIs]
    cases h : s.operandCell k with
    | ok raw =>
      have hr := (State.operandCell_eq_ok_iff s k raw).mp h
      simp only [Except.bind, State.memRead_eq_ok_iff]
      constructor
      · exact fun hv => ⟨raw, hr, hv⟩
      · rintro ⟨raw', hr', hv⟩
        rwa [← hr.2, hr'.2]
    | error c =>
      have hr := (State.operandCell_eq_error_iff s k c).mp h
      simp only [Except.bind, reduceCtorEq, false_iff]
      rintro ⟨raw, hraw, -⟩
      exact hr.1 hraw.1

/-- A value operand fails exactly under the fault condition it meets. -/
theorem State.valueOperand_eq_error_iff (s : State) (k : Nat) (m : Mode) (c : FaultCause) :
    s.valueOperand k m = .error c ↔ s.OperandFaults k m.resolved c := by
  cases m with
  | immediate =>
    simp only [State.valueOperand, Mode.resolved_immediate, State.OperandFaults, reduceCtorEq, false_and, or_false]
    exact State.operandCell_eq_error_iff s k c
  | position =>
    simp only [State.valueOperand, Mode.resolved_position, State.OperandFaults, true_and]
    cases h : s.operandCell k with
    | ok raw =>
      have hr := (State.operandCell_eq_ok_iff s k raw).mp h
      simp only [Except.bind, State.memRead_eq_error_iff]
      constructor
      · exact fun hv => .inr ⟨raw, hr, hv⟩
      · rintro (⟨hn, -⟩ | ⟨raw', hr', hv⟩)
        · exact absurd hr.1 hn
        · rwa [← hr.2, hr'.2]
    | error d =>
      have hr := (State.operandCell_eq_error_iff s k d).mp h
      simp only [Except.bind, Except.error.injEq]
      constructor
      · rintro rfl
        exact .inl hr
      · rintro (⟨-, hc⟩ | ⟨raw, hraw, -⟩)
        · rw [hc, hr.2]
        · exact absurd hraw.1 hr.1

theorem State.targetOperand_eq_ok_iff (s : State) (k : Nat) (v : Int) :
    s.targetOperand k = .ok v ↔ s.OperandIs k .forcedAddress v :=
  State.operandCell_eq_ok_iff s k v

theorem State.targetOperand_eq_error_iff (s : State) (k : Nat) (c : FaultCause) :
    s.targetOperand k = .error c ↔ s.OperandFaults k .forcedAddress c := by
  simp only [State.OperandFaults, reduceCtorEq, false_and, or_false]
  exact State.operandCell_eq_error_iff s k c

/-- An operand resolves to at most one value. -/
theorem State.OperandIs.unique {s : State} {k : Nat} {m : OperandMode} {v w : Int} (hv : s.OperandIs k m v)
    (hw : s.OperandIs k m w) : v = w := by
  cases m with
  | immediate => exact hv.2.symm.trans hw.2
  | forcedAddress => exact hv.2.symm.trans hw.2
  | position =>
    obtain ⟨r, hr, hv⟩ := hv
    obtain ⟨r', hr', hw⟩ := hw
    obtain rfl : r = r' := hr.2.symm.trans hr'.2
    exact hv.2.symm.trans hw.2

/-! ### Widths -/

theorem inCell_bits_iff (b : Nat) (v : Int) :
    (Width.bits b).inCell v = true ↔ -((Nat.pow 2 (b - 1) : Nat) : Int) ≤ v ∧ v < ((Nat.pow 2 (b - 1) : Nat) : Int) := by
  simp [Width.inCell]

@[simp] theorem inCell_unbounded (v : Int) : Width.unbounded.inCell v = true := rfl

/-- Every width of R7 holds the numbers -32768 to 32767. -/
theorem inCell_of_small (c : Config) (h : c.wf = true) (v : Int) (hl : -32768 ≤ v) (hu : v < 32768) :
    c.width.inCell v = true := by
  obtain ⟨w, l, st⟩ := c
  cases w with
  | unbounded => rfl
  | bits b =>
    have hb : 16 ≤ b := by simpa [Config.wf] using h
    have hp : Nat.pow 2 15 ≤ Nat.pow 2 (b - 1) := Nat.pow_le_pow_right (by decide) (by omega)
    have h15 : Nat.pow 2 15 = 32768 := by decide
    rw [inCell_bits_iff]
    omega

/-- What the bound on the memory length is for (R23): an address of Memory, and the default advance from one, is a `Cell`. -/
theorem inCell_near_memory (w : Width) (n : Nat) (h : w.lengthFits n = true) (v : Int) (hl : 0 ≤ v) (hu : v < (n : Int) + 4) :
    w.inCell v = true := by
  cases w with
  | unbounded => rfl
  | bits b =>
    have hn : n + 4 ≤ Nat.pow 2 (b - 1) := by simpa [Width.lengthFits] using h
    rw [inCell_bits_iff]
    omega

theorem State.checkedResult_eq_ok_iff (s : State) (o r v : Int) :
    s.checkedResult o r = .ok v ↔ s.cfg.width.inCell r = true ∧ v = r := by
  unfold State.checkedResult
  by_cases h : s.cfg.width.inCell r = true
  · simp [h, eq_comm]
  · simp [h]

theorem State.checkedResult_eq_error_iff (s : State) (o r : Int) (c : FaultCause) :
    s.checkedResult o r = .error c ↔ s.cfg.width.inCell r = false ∧ c = .overflow o := by
  unfold State.checkedResult
  by_cases h : s.cfg.width.inCell r = true
  · simp [h]
  · simp [h, eq_comm]

end Sys2Proof.Machine
end

