-- ==== Sys2Proof/Laws/Forms.lean ====
section
/-!
SUPPORT. What each instruction form can do, said once: the result when its conditions hold, and the inversion "if it answers
next t, then one of these cases holds". The meanings of `ADD`, `MUL`, `LT`, `EQ` are `computeStore`, those of `JNZ`, `JZ`
are `branch`, each by rfl.
-/
namespace Sys2Proof.Machine

variable {s t : State} {m0 m1 : Mode}

/-! ### The three-operand form -/

theorem State.computeStore_completes {f : Int → Int → Except FaultCause Int} {a b dest r : Int}
    (h0 : s.OperandIs 0 m0.resolved a) (h1 : s.OperandIs 1 m1.resolved b) (h2 : s.OperandIs 2 .forcedAddress dest)
    (hr : f a b = .ok r) (hd : s.IsCell dest) :
    s.computeStore m0 m1 f = .next { s with mem := Memory.put s.mem dest.toNat r, pc := s.pc + 1 + 3 } := by
  rw [← State.valueOperand_eq_ok_iff] at h0 h1
  rw [← State.targetOperand_eq_ok_iff] at h2
  have hw := (State.memWrite_eq_ok_iff s _ dest r).mpr ⟨hd, rfl⟩
  simp only [State.computeStore, h0, h1, h2, hr, hw, bind, Except.bind, pure, Except.pure, State.settle_ok]
  rfl

/-- Everything the three-operand form can do. -/
theorem State.computeStore_cases {f : Int → Int → Except FaultCause Int} (h : s.computeStore m0 m1 f = .next t) :
    (∃ a b dest r, s.OperandIs 0 m0.resolved a ∧ s.OperandIs 1 m1.resolved b ∧ s.OperandIs 2 .forcedAddress dest ∧
      f a b = .ok r ∧ s.IsCell dest ∧ t = { s with mem := Memory.put s.mem dest.toNat r, pc := s.pc + 1 + 3 }) ∨
    ∃ c, t = s.raise c ∧
      (s.OperandFaults 0 m0.resolved c ∨
       (∃ a, s.OperandIs 0 m0.resolved a ∧ s.OperandFaults 1 m1.resolved c) ∨
       (∃ a b, s.OperandIs 0 m0.resolved a ∧ s.OperandIs 1 m1.resolved b ∧ s.OperandFaults 2 .forcedAddress c) ∨
       ∃ a b dest, s.OperandIs 0 m0.resolved a ∧ s.OperandIs 1 m1.resolved b ∧ s.OperandIs 2 .forcedAddress dest ∧
         (f a b = .error c ∨ ∃ r, f a b = .ok r ∧ ¬ s.IsCell dest ∧ c = .writeRange dest)) := by
  unfold State.computeStore at h
  cases h0 : s.valueOperand 0 m0 with
  | error c =>
    simp only [h0, bind, Except.bind, State.settle_error, Host.Outcome.next.injEq] at h
    exact .inr ⟨c, h.symm, .inl ((State.valueOperand_eq_error_iff _ _ _ _).mp h0)⟩
  | ok a =>
    have h0' := (State.valueOperand_eq_ok_iff _ _ _ _).mp h0
    cases h1 : s.valueOperand 1 m1 with
    | error c =>
      simp only [h0, h1, bind, Except.bind, State.settle_error, Host.Outcome.next.injEq] at h
      exact .inr ⟨c, h.symm, .inr (.inl ⟨a, h0', (State.valueOperand_eq_error_iff _ _ _ _).mp h1⟩)⟩
    | ok b =>
      have h1' := (State.valueOperand_eq_ok_iff _ _ _ _).mp h1
      cases h2 : s.targetOperand 2 with
      | error c =>
        simp only [h0, h1, h2, bind, Except.bind, State.settle_error, Host.Outcome.next.injEq] at h
        exact .inr ⟨c, h.symm, .inr (.inr (.inl ⟨a, b, h0', h1', (State.targetOperand_eq_error_iff _ _ _).mp h2⟩))⟩
      | ok dest =>
        have h2' := (State.targetOperand_eq_ok_iff _ _ _).mp h2
        cases hf : f a b with
        | error c =>
          simp only [h0, h1, h2, hf, bind, Except.bind, State.settle_error, Host.Outcome.next.injEq] at h
          exact .inr ⟨c, h.symm, .inr (.inr (.inr ⟨a, b, dest, h0', h1', h2', .inl hf⟩))⟩
        | ok r =>
          cases hw : s.memWrite dest r with
          | error c =>
            simp only [h0, h1, h2, hf, hw, bind, Except.bind, State.settle_error, Host.Outcome.next.injEq] at h
            exact .inr ⟨c, h.symm, .inr (.inr (.inr ⟨a, b, dest, h0', h1', h2',
              .inr ⟨r, hf, (State.memWrite_eq_error_iff _ _ _ _).mp hw⟩⟩))⟩
          | ok u =>
            obtain ⟨hd, rfl⟩ := (State.memWrite_eq_ok_iff _ _ _ _).mp hw
            simp only [h0, h1, h2, hf, hw, bind, Except.bind, pure, Except.pure, State.settle_ok,
              Host.Outcome.next.injEq] at h
            exact .inl ⟨a, b, dest, r, h0', h1', h2', hf, hd, h.symm⟩

/-! ### The three-operand form, when it faults -/

theorem State.computeStore_fault0 {f : Int → Int → Except FaultCause Int} {c : FaultCause}
    (h : s.OperandFaults 0 m0.resolved c) : s.computeStore m0 m1 f = .next (s.raise c) := by
  rw [← State.valueOperand_eq_error_iff] at h
  simp [State.computeStore, h, bind, Except.bind]

theorem State.computeStore_fault1 {f : Int → Int → Except FaultCause Int} {c : FaultCause} {a : Int}
    (h0 : s.OperandIs 0 m0.resolved a) (h : s.OperandFaults 1 m1.resolved c) :
    s.computeStore m0 m1 f = .next (s.raise c) := by
  rw [← State.valueOperand_eq_error_iff] at h
  rw [← State.valueOperand_eq_ok_iff] at h0
  simp [State.computeStore, h0, h, bind, Except.bind]

theorem State.computeStore_fault2 {f : Int → Int → Except FaultCause Int} {c : FaultCause} {a b : Int}
    (h0 : s.OperandIs 0 m0.resolved a) (h1 : s.OperandIs 1 m1.resolved b) (h : s.OperandFaults 2 .forcedAddress c) :
    s.computeStore m0 m1 f = .next (s.raise c) := by
  rw [← State.targetOperand_eq_error_iff] at h
  rw [← State.valueOperand_eq_ok_iff] at h0 h1
  simp [State.computeStore, h0, h1, h, bind, Except.bind]

theorem State.computeStore_fault_operation {f : Int → Int → Except FaultCause Int} {c : FaultCause} {a b dest : Int}
    (h0 : s.OperandIs 0 m0.resolved a) (h1 : s.OperandIs 1 m1.resolved b) (h2 : s.OperandIs 2 .forcedAddress dest)
    (h : f a b = .error c) : s.computeStore m0 m1 f = .next (s.raise c) := by
  rw [← State.targetOperand_eq_ok_iff] at h2
  rw [← State.valueOperand_eq_ok_iff] at h0 h1
  simp [State.computeStore, h0, h1, h2, h, bind, Except.bind]

theorem State.computeStore_fault_write {f : Int → Int → Except FaultCause Int} {a b dest r : Int}
    (h0 : s.OperandIs 0 m0.resolved a) (h1 : s.OperandIs 1 m1.resolved b) (h2 : s.OperandIs 2 .forcedAddress dest)
    (hr : f a b = .ok r) (hd : ¬ s.IsCell dest) : s.computeStore m0 m1 f = .next (s.raise (.writeRange dest)) := by
  have hw := (State.memWrite_eq_error_iff s dest r _).mpr ⟨hd, rfl⟩
  rw [← State.targetOperand_eq_ok_iff] at h2
  rw [← State.valueOperand_eq_ok_iff] at h0 h1
  simp [State.computeStore, h0, h1, h2, hr, hw, bind, Except.bind]

/-! ### The jump form -/

theorem State.branch_completes {taken : Int → Bool} {a target : Int}
    (h0 : s.OperandIs 0 m0.resolved a) (h1 : s.OperandIs 1 m1.resolved target) :
    s.branch m0 m1 taken = .next { s with pc := if taken a then target else s.pc + 1 + 2 } := by
  rw [← State.valueOperand_eq_ok_iff] at h0 h1
  cases ht : taken a <;>
    simp only [State.branch, h0, h1, ht, bind, Except.bind, pure, Except.pure, State.settle_ok, if_true,
      Bool.false_eq_true, if_false] <;> rfl

/-- Everything the jump form can do. -/
theorem State.branch_cases {taken : Int → Bool} (h : s.branch m0 m1 taken = .next t) :
    (∃ a target, s.OperandIs 0 m0.resolved a ∧ s.OperandIs 1 m1.resolved target ∧
      t = { s with pc := if taken a then target else s.pc + 1 + 2 }) ∨
    ∃ c, t = s.raise c ∧
      (s.OperandFaults 0 m0.resolved c ∨ ∃ a, s.OperandIs 0 m0.resolved a ∧ s.OperandFaults 1 m1.resolved c) := by
  cases h0 : s.valueOperand 0 m0 with
  | error c =>
    simp only [State.branch, h0, bind, Except.bind, State.settle_error, Host.Outcome.next.injEq] at h
    exact .inr ⟨c, h.symm, .inl ((State.valueOperand_eq_error_iff _ _ _ _).mp h0)⟩
  | ok a =>
    have h0' := (State.valueOperand_eq_ok_iff _ _ _ _).mp h0
    cases h1 : s.valueOperand 1 m1 with
    | error c =>
      simp only [State.branch, h0, h1, bind, Except.bind, State.settle_error, Host.Outcome.next.injEq] at h
      exact .inr ⟨c, h.symm, .inr ⟨a, h0', (State.valueOperand_eq_error_iff _ _ _ _).mp h1⟩⟩
    | ok target =>
      have h1' := (State.valueOperand_eq_ok_iff _ _ _ _).mp h1
      rw [State.branch_completes h0' h1', Host.Outcome.next.injEq] at h
      exact .inl ⟨a, target, h0', h1', h.symm⟩

/-! ### Input and output -/

theorem execIn_completes {dest x : Int} (h0 : s.OperandIs 0 .forcedAddress dest) (hx : s.inp = some x)
    (hd : s.IsCell dest) : execIn s = .next { s with mem := Memory.put s.mem dest.toNat x, pc := s.pc + 1 + 1 } := by
  have hw := (State.memWrite_eq_ok_iff s _ dest x).mpr ⟨hd, rfl⟩
  rw [← State.targetOperand_eq_ok_iff] at h0
  simp only [execIn, h0, State.readInput, hx, hw, bind, Except.bind, pure, Except.pure, State.settle_ok]
  simp [State.advance]

theorem execOut_completes {v : Int} (h0 : s.OperandIs 0 m0.resolved v)
    (hs : (s.cfg.strictSingleOutput && s.out.isSome) = false) :
    execOut m0 s = .next { s with out := some v, outLog := s.outLog ++ [v], pc := s.pc + 1 + 1 } := by
  rw [← State.valueOperand_eq_ok_iff] at h0
  simp [execOut, h0, State.emit, hs, bind, Except.bind, pure, Except.pure, State.advance]

/-- Everything `IN` can do. -/
theorem execIn_cases (h : execIn s = .next t) :
    (∃ dest x, s.OperandIs 0 .forcedAddress dest ∧ s.inp = some x ∧ s.IsCell dest ∧
      t = { s with mem := Memory.put s.mem dest.toNat x, pc := s.pc + 1 + 1 }) ∨
    ∃ c, t = s.raise c ∧
      (s.OperandFaults 0 .forcedAddress c ∨
       ∃ dest, s.OperandIs 0 .forcedAddress dest ∧
         ((s.inp = none ∧ c = .noInput) ∨ ∃ x, s.inp = some x ∧ ¬ s.IsCell dest ∧ c = .writeRange dest)) := by
  unfold execIn State.readInput at h
  cases h0 : s.targetOperand 0 with
  | error c =>
    simp only [h0, bind, Except.bind, State.settle_error, Host.Outcome.next.injEq] at h
    exact .inr ⟨c, h.symm, .inl ((State.targetOperand_eq_error_iff _ _ _).mp h0)⟩
  | ok dest =>
    have h0' := (State.targetOperand_eq_ok_iff _ _ _).mp h0
    cases hi : s.inp with
    | none =>
      simp only [h0, hi, bind, Except.bind, State.settle_error, Host.Outcome.next.injEq] at h
      exact .inr ⟨.noInput, h.symm, .inr ⟨dest, h0', .inl ⟨rfl, rfl⟩⟩⟩
    | some x =>
      cases hw : s.memWrite dest x with
      | error c =>
        simp only [h0, hi, hw, bind, Except.bind, State.settle_error, Host.Outcome.next.injEq] at h
        exact .inr ⟨c, h.symm, .inr ⟨dest, h0', .inr ⟨x, rfl, (State.memWrite_eq_error_iff _ _ _ _).mp hw⟩⟩⟩
      | ok u =>
        obtain ⟨hd, rfl⟩ := (State.memWrite_eq_ok_iff _ _ _ _).mp hw
        simp only [h0, hi, hw, bind, Except.bind, pure, Except.pure, State.settle_ok, Host.Outcome.next.injEq] at h
        exact .inl ⟨dest, x, h0', rfl, hd, h.symm⟩

/-- Everything `OUT` can do. -/
theorem execOut_cases (h : execOut m0 s = .next t) :
    (∃ v, s.OperandIs 0 m0.resolved v ∧ ¬ (s.cfg.strictSingleOutput = true ∧ s.out.isSome = true) ∧
      t = { s with out := some v, outLog := s.outLog ++ [v], pc := s.pc + 1 + 1 }) ∨
    ∃ c, t = s.raise c ∧
      (s.OperandFaults 0 m0.resolved c ∨
       ∃ v, s.OperandIs 0 m0.resolved v ∧ s.cfg.strictSingleOutput = true ∧ s.out.isSome = true ∧ c = .secondOutput v) := by
  unfold execOut State.emit at h
  cases h0 : s.valueOperand 0 m0 with
  | error c =>
    simp only [h0, bind, Except.bind, State.settle_error, Host.Outcome.next.injEq] at h
    exact .inr ⟨c, h.symm, .inl ((State.valueOperand_eq_error_iff _ _ _ _).mp h0)⟩
  | ok v =>
    have h0' := (State.valueOperand_eq_ok_iff _ _ _ _).mp h0
    by_cases hs : s.cfg.strictSingleOutput = true ∧ s.out.isSome = true
    · have hs' : (s.cfg.strictSingleOutput && s.out.isSome) = true := by simp [hs.1, hs.2]
      simp only [h0, hs', if_true, bind, Except.bind, State.settle_error, Host.Outcome.next.injEq] at h
      exact .inr ⟨_, h.symm, .inr ⟨v, h0', hs.1, hs.2, rfl⟩⟩
    · have hs' : (s.cfg.strictSingleOutput && s.out.isSome) = false := by simpa using hs
      simp only [h0, hs', Bool.false_eq_true, if_false, bind, Except.bind, pure, Except.pure, State.settle_ok,
        Host.Outcome.next.injEq] at h
      exact .inl ⟨v, h0', hs, h.symm⟩

end Sys2Proof.Machine
end

