-- ==== Sys2Proof/Laws/Load.lean ====
section
/-!
SUPPORT. What a load gives, and the invariant at a raise.
-/
namespace Sys2Proof.Machine

/-- Everything an accepted load says. -/
theorem load_eq_some_iff (c : Config) (image : List Int) (input : Option Int) (s : State) :
    load c image input = some s ↔
      c.wf = true ∧ c.width.lengthFits image.length = true ∧ (∀ v ∈ image, c.width.inCell v = true) ∧
      (∀ v, input = some v → c.width.inCell v = true) ∧
      s = { cfg := c, memLen := image.length, mem := Memory.ofImage 0 image, pc := 0, status := .running,
            inp := input, out := none, outLog := [], fault := none } := by
  unfold load
  constructor
  · intro h
    split at h
    · rename_i hc
      simp only [Bool.and_eq_true, List.all_eq_true] at hc
      refine ⟨hc.1.1.1, hc.1.1.2, hc.1.2, ?_, by simpa using h.symm⟩
      rintro v rfl
      exact hc.2 v (by simp)
    · cases h
  · rintro ⟨h1, h2, h3, h4, rfl⟩
    have h3' : image.all c.width.inCell = true := List.all_eq_true.mpr h3
    have h4' : input.toList.all c.width.inCell = true := by
      cases input with
      | none => rfl
      | some v => simpa using h4 v rfl
    simp [h1, h2, h3', h4']

/-- A listed memory of `Cell` values reads as `Cell` values everywhere. -/
theorem State.Inv.cellAt_inCell {s : State} (hi : s.Inv) (a : Int) : s.cfg.width.inCell (s.cellAt a) = true := by
  have zero : s.cfg.width.inCell 0 = true := inCell_of_small _ hi.cfgWf 0 (by omega) (by omega)
  have main : ∀ m : List (Nat × Cell), (∀ e ∈ m, s.cfg.width.inCell e.2 = true) →
      ∀ b, s.cfg.width.inCell (Memory.lookup m b) = true := by
    intro m
    induction m with
    | nil => exact fun _ _ => zero
    | cons e rest ih =>
      intro h b
      obtain ⟨k, x⟩ := e
      simp only [Memory.lookup]
      split
      · exact h (k, x) (by simp)
      · exact ih (fun e he => h e (by simp [he])) b
  exact main _ hi.cells _

/-- What an operand resolves to is a `Cell` value. -/
theorem State.Inv.operand_inCell {s : State} (hi : s.Inv) {k : Nat} {m : OperandMode} {v : Int}
    (h : s.OperandIs k m v) : s.cfg.width.inCell v = true := by
  cases m with
  | immediate => exact h.2 ▸ hi.cellAt_inCell _
  | forcedAddress => exact h.2 ▸ hi.cellAt_inCell _
  | position =>
    obtain ⟨r, -, h2⟩ := h
    exact h2.2 ▸ hi.cellAt_inCell _

end Sys2Proof.Machine
end

