-- ==== Sys2Proof/Laws/PerInstr.lean ====
section
/-!
SUPPORT. A statement per instruction: the word the encoder writes is one of the canonical words R70 lists for its mnemonic.
-/
namespace Sys2Proof.Laws

/-- The canonical words of R70, transcribed. -/
def canonicalWords : Opcode → List Int
  | .hlt => [99]
  | .add => [1, 101, 1001, 1101]
  | .mul => [2, 102, 1002, 1102]
  | .inp => [3]
  | .out => [4, 104]
  | .jnz => [5, 105, 1005, 1105]
  | .jz => [6, 106, 1006, 1106]
  | .lt => [7, 107, 1007, 1107]
  | .eq => [8, 108, 1008, 1108]

/-- The encoder writes a canonical word of the instruction's own row. -/
abbrev EncodedWord.Statement (i : Instr) : Prop := encode i ∈ canonicalWords i.opcode

theorem EncodedWord.hlt : EncodedWord.Statement .hlt := by decide
theorem EncodedWord.add (m0 m1 : Mode) : EncodedWord.Statement (.add m0 m1) := by cases m0 <;> cases m1 <;> decide
theorem EncodedWord.mul (m0 m1 : Mode) : EncodedWord.Statement (.mul m0 m1) := by cases m0 <;> cases m1 <;> decide
theorem EncodedWord.inp : EncodedWord.Statement .inp := by decide
theorem EncodedWord.out (m0 : Mode) : EncodedWord.Statement (.out m0) := by cases m0 <;> decide
theorem EncodedWord.jnz (m0 m1 : Mode) : EncodedWord.Statement (.jnz m0 m1) := by cases m0 <;> cases m1 <;> decide
theorem EncodedWord.jz (m0 m1 : Mode) : EncodedWord.Statement (.jz m0 m1) := by cases m0 <;> cases m1 <;> decide
theorem EncodedWord.lt (m0 m1 : Mode) : EncodedWord.Statement (.lt m0 m1) := by cases m0 <;> cases m1 <;> decide
theorem EncodedWord.eq (m0 m1 : Mode) : EncodedWord.Statement (.eq m0 m1) := by cases m0 <;> cases m1 <;> decide

end Sys2Proof.Laws
end

