-- ==== Sys2Proof/Laws/Step.lean ====
section
/-!
SUPPORT. What a step can do, said once.
-/
namespace Sys2Proof.Machine

variable {s t : State}

/-- A terminal state is stepped to itself. -/
theorem step_of_not_running (h : s.status ≠ .running) : step s = .next s := by
  cases hs : s.status <;> simp_all [step]

/-- The step of a running machine whose word decodes is the decoded instruction. -/
theorem step_of_decode {w : Int} {i : Instr} (hr : s.status = .running) (hw : s.Holds s.pc w)
    (hd : decode s.cfg.level w = .ok i) : step s = exec i s := by
  rw [← State.fetchWord_eq_ok_iff] at hw
  simp [step, hr, hw, hd]

/-- The step of a running machine whose `pc` is outside Memory is the fetch fault. -/
theorem step_of_fetch_fault (hr : s.status = .running) (h : ¬ s.IsCell s.pc) :
    step s = .next (s.raise (.fetchRange s.pc)) := by
  have hf := (State.fetchWord_eq_error_iff s (.fetchRange s.pc)).mpr ⟨h, rfl⟩
  simp [step, hr, hf]

/-- The step of a running machine whose word does not decode is the decode fault. -/
theorem step_of_decode_fault {w : Int} {d : DecodeFault} (hr : s.status = .running) (hw : s.Holds s.pc w)
    (hd : decode s.cfg.level w = .error d) : step s = .next (s.raise (.ofDecode d)) := by
  rw [← State.fetchWord_eq_ok_iff] at hw
  simp [step, hr, hw, hd]

/-- Everything a step can do. -/
theorem step_cases (h : step s = .next t) :
    (s.status ≠ .running ∧ t = s) ∨
    (s.status = .running ∧ ¬ s.IsCell s.pc ∧ t = s.raise (.fetchRange s.pc)) ∨
    (∃ w d, s.status = .running ∧ s.Holds s.pc w ∧ decode s.cfg.level w = .error d ∧ t = s.raise (.ofDecode d)) ∨
    (∃ w i, s.status = .running ∧ s.Holds s.pc w ∧ decode s.cfg.level w = .ok i ∧ exec i s = .next t) := by
  by_cases hr : s.status = .running
  · cases hf : s.fetchWord with
    | error c =>
      obtain ⟨hn, rfl⟩ := (State.fetchWord_eq_error_iff s c).mp hf
      simp only [step, hr, hf, Host.Outcome.next.injEq] at h
      exact .inr (.inl ⟨hr, hn, h.symm⟩)
    | ok w =>
      have hw := (State.fetchWord_eq_ok_iff s w).mp hf
      cases hd : decode s.cfg.level w with
      | error d =>
        simp only [step, hr, hf, hd, Host.Outcome.next.injEq] at h
        exact .inr (.inr (.inl ⟨w, d, hr, hw, hd, h.symm⟩))
      | ok i =>
        simp only [step, hr, hf, hd] at h
        exact .inr (.inr (.inr ⟨w, i, hr, hw, hd, h⟩))
  · rw [step_of_not_running hr, Host.Outcome.next.injEq] at h
    exact .inl ⟨hr, h.symm⟩

/-! ### What an instruction can do -/

/-- The two causes an operand's resolution can have, by code. -/
theorem State.OperandFaults.code {k : Nat} {m : OperandMode} {c : FaultCause} (h : s.OperandFaults k m c) :
    c.code = 4 ∨ m = .position ∧ c.code = 5 := by
  rcases h with ⟨-, rfl⟩ | ⟨hm, r, -, -, rfl⟩
  · exact .inl rfl
  · exact .inr ⟨hm, rfl⟩

/-- An operand that resolves meets no fault condition. -/
theorem State.OperandFaults.not_resolved {k : Nat} {m : OperandMode} {c : FaultCause} {v : Int}
    (hf : s.OperandFaults k m c) : ¬ s.OperandIs k m v := by
  intro h
  cases m with
  | immediate => rcases hf with ⟨hn, -⟩ | ⟨hm, -⟩; exacts [hn h.1, nomatch hm]
  | forcedAddress => rcases hf with ⟨hn, -⟩ | ⟨hm, -⟩; exacts [hn h.1, nomatch hm]
  | position =>
    obtain ⟨r, h1, h2⟩ := h
    rcases hf with ⟨hn, -⟩ | ⟨-, r', h1', h2', -⟩
    · exact hn h1.1
    · obtain rfl : r = r' := h1.2.symm.trans h1'.2
      exact h2' h2.1

/-- The two results a comparison writes are `Cell` values. -/
theorem State.Inv.boolCell_inCell (hi : s.Inv) (b : Bool) : s.cfg.width.inCell (boolCell b) = true := by
  apply inCell_of_small _ hi.cfgWf <;> cases b <;> simp [boolCell]

/-- What the three-operand form can do, for an instruction `i` of that form. -/
theorem State.computeStore_effect {i : Instr} {m0 m1 : Mode} {f : Int → Int → Except FaultCause Int}
    (hw : i.opcode.writeTarget = some 2) (hn : i.width = 4) (hs : [4, 5, 6] ⊆ executionCauses i.opcode)
    (he : ∀ a b c, f a b = .error c → c.code ∈ executionCauses i.opcode)
    (hc : s.Inv → ∀ a b r, f a b = .ok r → s.cfg.width.inCell r = true)
    (h : s.computeStore m0 m1 f = .next t) :
    (∃ c, t = s.raise c ∧ c.code ∈ executionCauses i.opcode) ∨
    ∃ k dest r, i.opcode.writeTarget = some k ∧ s.Holds (s.pc + 1 + k) dest ∧ s.IsCell dest ∧
      t = { s with mem := Memory.put s.mem dest.toNat r, pc := s.pc + i.width } ∧
      (s.Inv → s.cfg.width.inCell r = true) := by
  rcases State.computeStore_cases h with ⟨a, b, dest, r, -, -, h2, hf, hd, rfl⟩ | ⟨c, rfl, hcase⟩
  · refine .inr ⟨2, dest, r, hw, h2, hd, ?_, fun hi => hc hi a b r hf⟩
    rw [hn]
    simp [add_assoc]
  · refine .inl ⟨c, rfl, ?_⟩
    rcases hcase with hop | ⟨a, -, hop⟩ | ⟨a, b, -, -, hop⟩ | ⟨a, b, dest, -, -, -, hop | ⟨r, -, -, rfl⟩⟩
    · rcases hop.code with h | ⟨-, h⟩ <;> rw [h] <;> exact hs (by simp)
    · rcases hop.code with h | ⟨-, h⟩ <;> rw [h] <;> exact hs (by simp)
    · rcases hop.code with h | ⟨-, h⟩ <;> rw [h] <;> exact hs (by simp)
    · exact he _ _ _ hop
    · exact hs (by simp [FaultCause.code])

/-- Everything an instruction can do, said once: it raises one of its causes; or it halts; or it stores one value and advances;
or it emits one value and advances; or it jumps or falls through. -/
theorem exec_cases {i : Instr} (h : exec i s = .next t) :
    (∃ c, t = s.raise c ∧ c.code ∈ executionCauses i.opcode) ∨
    (i = .hlt ∧ t = { s with status := .halted }) ∨
    (∃ k dest r, i.opcode.writeTarget = some k ∧ s.Holds (s.pc + 1 + k) dest ∧ s.IsCell dest ∧
      t = { s with mem := Memory.put s.mem dest.toNat r, pc := s.pc + i.width } ∧
      (s.Inv → s.cfg.width.inCell r = true)) ∨
    (∃ m0 v, i = .out m0 ∧ s.OperandIs 0 m0.resolved v ∧
      ¬ (s.cfg.strictSingleOutput = true ∧ s.out.isSome = true) ∧
      t = { s with out := some v, outLog := s.outLog ++ [v], pc := s.pc + 2 }) ∨
    (∃ m0 m1 a target, (i = .jnz m0 m1 ∨ i = .jz m0 m1) ∧ s.OperandIs 0 m0.resolved a ∧
      s.OperandIs 1 m1.resolved target ∧
      t = { s with pc := if i = .jnz m0 m1 ∧ a ≠ 0 ∨ i = .jz m0 m1 ∧ a = 0 then target else s.pc + 3 }) := by
  cases i with
  | hlt =>
    simp only [exec, execHlt, Host.Outcome.next.injEq] at h
    exact .inr (.inl ⟨rfl, h.symm⟩)
  | add m0 m1 =>
    rcases State.computeStore_effect (i := .add m0 m1) rfl rfl (by simp [executionCauses, Instr.opcode])
      (by intro a b c hc
          rw [((State.checkedResult_eq_error_iff _ _ _ _).mp hc).2]
          simp [executionCauses, Instr.opcode, FaultCause.code])
      (by intro _ a b r hr
          obtain ⟨h1, rfl⟩ := (State.checkedResult_eq_ok_iff _ _ _ _).mp hr
          exact h1) h with h | h
    · exact .inl h
    · exact .inr (.inr (.inl h))
  | mul m0 m1 =>
    rcases State.computeStore_effect (i := .mul m0 m1) rfl rfl (by simp [executionCauses, Instr.opcode])
      (by intro a b c hc
          rw [((State.checkedResult_eq_error_iff _ _ _ _).mp hc).2]
          simp [executionCauses, Instr.opcode, FaultCause.code])
      (by intro _ a b r hr
          obtain ⟨h1, rfl⟩ := (State.checkedResult_eq_ok_iff _ _ _ _).mp hr
          exact h1) h with h | h
    · exact .inl h
    · exact .inr (.inr (.inl h))
  | lt m0 m1 =>
    rcases State.computeStore_effect (i := .lt m0 m1) rfl rfl (by simp [executionCauses, Instr.opcode])
      (by intro a b c hc; cases hc) (by intro hi a b r hr; cases hr; exact hi.boolCell_inCell _) h with h | h
    · exact .inl h
    · exact .inr (.inr (.inl h))
  | eq m0 m1 =>
    rcases State.computeStore_effect (i := .eq m0 m1) rfl rfl (by simp [executionCauses, Instr.opcode])
      (by intro a b c hc; cases hc) (by intro hi a b r hr; cases hr; exact hi.boolCell_inCell _) h with h | h
    · exact .inl h
    · exact .inr (.inr (.inl h))
  | inp =>
    rcases execIn_cases h with ⟨dest, x, h0, hx, hd, rfl⟩ | ⟨c, rfl, hc⟩
    · refine .inr (.inr (.inl ⟨0, dest, x, rfl, h0, hd, ?_, fun hi => hi.inpCell x hx⟩))
      simp [Instr.width, Instr.arity, Instr.opcode, Opcode.arity, add_assoc]
    · refine .inl ⟨c, rfl, ?_⟩
      rcases hc with hc | ⟨dest, -, ⟨-, rfl⟩ | ⟨x, -, -, rfl⟩⟩
      · rcases hc.code with h | ⟨hm, -⟩
        · simp [h, executionCauses, Instr.opcode]
        · cases hm
      · simp [executionCauses, Instr.opcode, FaultCause.code]
      · simp [executionCauses, Instr.opcode, FaultCause.code]
  | out m0 =>
    rcases execOut_cases h with ⟨v, h0, hs, rfl⟩ | ⟨c, rfl, hc⟩
    · refine .inr (.inr (.inr (.inl ⟨m0, v, rfl, h0, hs, ?_⟩)))
      simp [add_assoc]
    · refine .inl ⟨c, rfl, ?_⟩
      rcases hc with hc | ⟨v, -, -, -, rfl⟩
      · rcases hc.code with h | ⟨-, h⟩ <;> simp [h, executionCauses, Instr.opcode]
      · simp [executionCauses, Instr.opcode, FaultCause.code]
  | jnz m0 m1 =>
    rcases State.branch_cases h with ⟨a, target, h0, h1, rfl⟩ | ⟨c, rfl, hc⟩
    · refine .inr (.inr (.inr (.inr ⟨m0, m1, a, target, .inl rfl, h0, h1, ?_⟩)))
      simp [add_assoc]
    · refine .inl ⟨c, rfl, ?_⟩
      rcases hc with hc | ⟨_, -, hc⟩ <;> rcases hc.code with h | ⟨-, h⟩ <;> simp [h, executionCauses, Instr.opcode]
  | jz m0 m1 =>
    rcases State.branch_cases h with ⟨a, target, h0, h1, rfl⟩ | ⟨c, rfl, hc⟩
    · refine .inr (.inr (.inr (.inr ⟨m0, m1, a, target, .inr rfl, h0, h1, ?_⟩)))
      simp [add_assoc]
    · refine .inl ⟨c, rfl, ?_⟩
      rcases hc with hc | ⟨_, -, hc⟩ <;> rcases hc.code with h | ⟨-, h⟩ <;> simp [h, executionCauses, Instr.opcode]

end Sys2Proof.Machine
end

