-- ==== Sys2Proof/Tests/Slice0.lean ====
section
/-!
SUPPORT. The tests: the ill-formed terms that WellFormed refuses, words written out from the encoding, one step per instruction
with the end state that spec/95_test_vectors.md gives, and for every obligation that has hypotheses a state that meets them all.
-/
namespace Sys2Proof.Tests

open Sys2Proof Sys2Proof.Machine

/-! ### Small states -/

/-- `W = 64`, `EXTENDED`, several outputs allowed: the vectors' default. -/
def ext : Config := Config.default .extended

/-- `W = 64`, `MINIMAL`, one output allowed. -/
def minimalStrict : Config := Config.default .minimal

/-- The narrowest width of R7, where the ends of the cell range are short numbers. -/
def ext16 : Config := ⟨.bits 16, .extended, false⟩

/-- `EXTENDED` with the output check on. -/
def extStrict : Config := ⟨.bits 64, .extended, true⟩

/-- Unbounded cells. -/
def extInf : Config := ⟨.unbounded, .extended, false⟩

/-- The state R35 describes, for this image and input. -/
def machine (c : Config) (image : List Cell) (input : Option Int) : State :=
  { State.reset with cfg := c, memLen := image.length, mem := Memory.ofImage 0 image, inp := input }

/-- One step from that state. -/
def stepped (c : Config) (image : List Cell) (input : Option Int) : Option State :=
  nextState (machine c image input)

/-- What a vector says of a step that goes on: `pc`, the status and one cell. -/
def cellView (a : Int) (t : State) : Int × Status × Int := (t.pc, t.status, t.cellAt a)

/-- What a vector says of a step that faults: `pc`, the defect, and that memory is as it was. -/
def faultView (t : State) : Int × Status × Option (FaultCause × Int) × List Cell :=
  (t.pc, t.status, t.fault.map (fun r => (r.cause, r.fpc)), t.image)

/-- The state a result answers, for `decide` (the host's outcomes have no decidable equality). -/
def answer : Result → Option State
  | .next t => some t
  | .fault _ => none
  | .refused _ => none

theorem next_of {r : Result} {t : State} (h : answer r = some t) : r = .next t := by
  cases r with
  | next u => exact congrArg _ (Option.some.inj h)
  | fault f => cases h
  | refused f => cases h

theorem holds_of {s : State} {a v : Int} (h : s.inBounds a = true ∧ s.cellAt a = v) : s.Holds a v :=
  ⟨(s.inBounds_iff a).mp h.1, h.2⟩

theorem isCell_of {s : State} {a : Int} (h : s.inBounds a = true) : s.IsCell a := (s.inBounds_iff a).mp h

theorem not_isCell_of {s : State} {a : Int} (h : s.inBounds a = false) : ¬ s.IsCell a :=
  (s.inBounds_eq_false_iff a).mp h

theorem immediate_of {s : State} {k : Nat} {v : Int}
    (h : s.inBounds (s.pc + 1 + k) = true ∧ s.cellAt (s.pc + 1 + k) = v) : s.OperandIs k .immediate v := holds_of h

theorem target_of {s : State} {k : Nat} {v : Int}
    (h : s.inBounds (s.pc + 1 + k) = true ∧ s.cellAt (s.pc + 1 + k) = v) : s.OperandIs k .forcedAddress v := holds_of h

theorem position_of {s : State} {k : Nat} {v : Int} (raw : Int)
    (h : s.inBounds (s.pc + 1 + k) = true ∧ s.cellAt (s.pc + 1 + k) = raw)
    (hv : s.inBounds raw = true ∧ s.cellAt raw = v) : s.OperandIs k .position v := ⟨raw, holds_of h, holds_of hv⟩

/-! ### WellFormed refuses -/

/-- R69: the four instructions of `EXTENDED` do not exist at `MINIMAL`. -/
theorem test_minimal_refuses_jnz : Instr.wf .minimal (.jnz .position .immediate) = false := by decide
theorem test_minimal_refuses_jz : Instr.wf .minimal (.jz .immediate .immediate) = false := by decide
theorem test_minimal_refuses_lt : Instr.wf .minimal (.lt .position .position) = false := by decide
theorem test_minimal_refuses_eq : Instr.wf .minimal (.eq .immediate .position) = false := by decide

/-- R7: a width below 16 is no configuration, and nothing loads under it. -/
theorem test_narrow_width_refused :
    Config.wf ⟨.bits 15, .extended, false⟩ = false ∧ load ⟨.bits 15, .extended, false⟩ [99] none = none := by decide

/-! ### Decoding: words written out from R62 (digits `C B A o o`) and R64, with the results of VD1 to VD32 -/

/-- F0: opcode 99; digits above it are unused (VD1, VD29, VD28). -/
theorem test_decode_hlt :
    decode .minimal 99 = .ok .hlt ∧ decode .extended 199 = .ok .hlt ∧
    decode .extended (-99) = .error (.illegalOpcode (-99)) := by decide

/-- F3, opcode 01 (VD2, VD3, VD4, VD25, VD31): digits 2, 3 are the modes, digit 4 the target's. -/
theorem test_decode_add :
    decode .minimal 1 = .ok (.add .position .position) ∧ decode .minimal 1101 = .ok (.add .immediate .immediate) ∧
    decode .minimal 101 = .ok (.add .immediate .position) ∧ decode .minimal 11101 = .ok (.add .immediate .immediate) ∧
    decode .extended 1000000001 = .ok (.add .position .position) ∧
    decode .extended 20001 = .error (.illegalMode 20001 2 2) := by decide

/-- F3, opcode 02 (VD5, VD32). -/
theorem test_decode_mul :
    decode .minimal 1002 = .ok (.mul .position .immediate) ∧ decode .extended 2 = .ok (.mul .position .position) := by
  decide

/-- F1, opcode 03, its only operand a target (VD6, VD7, VD8). -/
theorem test_decode_in :
    decode .minimal 3 = .ok .inp ∧ decode .minimal 103 = .ok .inp ∧
    decode .minimal 203 = .error (.illegalMode 203 0 2) := by decide

/-- F1, opcode 04 (VD9, VD10, VD11). -/
theorem test_decode_out :
    decode .minimal 104 = .ok (.out .immediate) ∧ decode .minimal 1104 = .ok (.out .immediate) ∧
    decode .minimal 204 = .error (.illegalMode 204 0 2) := by decide

/-- F2, opcode 05 (VD12, VD13, VD14, VD15). -/
theorem test_decode_jnz :
    decode .extended 1005 = .ok (.jnz .position .immediate) ∧ decode .minimal 1005 = .error (.illegalOpcode 1005) ∧
    decode .extended 1205 = .error (.illegalMode 1205 0 2) ∧
    decode .extended 2105 = .error (.illegalMode 2105 1 2) := by decide

/-- F2, opcode 06 (words of VJ5 and VJ9). -/
theorem test_decode_jz :
    decode .extended 1106 = .ok (.jz .immediate .immediate) ∧ decode .extended 6 = .ok (.jz .position .position) := by
  decide

/-- F3, opcode 07 (VD16, and the word of VC4). -/
theorem test_decode_lt :
    decode .extended 1107 = .ok (.lt .immediate .immediate) ∧ decode .extended 7 = .ok (.lt .position .position) := by
  decide

/-- F3, opcode 08 (VD17, VD18). -/
theorem test_decode_eq :
    decode .extended 8 = .ok (.eq .position .position) ∧ decode .minimal 8 = .error (.illegalOpcode 8) := by decide

/-- No opcode: 0, 9, 98, and 250, whose bad digit is not looked at (VD19, VD20, VD21, VD23). -/
theorem test_decode_no_opcode :
    decode .extended 0 = .error (.illegalOpcode 0) ∧ decode .extended 9 = .error (.illegalOpcode 9) ∧
    decode .extended 98 = .error (.illegalOpcode 98) ∧ decode .extended 250 = .error (.illegalOpcode 250) := by decide

/-- The table's words as bits: the number itself in a cell of 64 bits. -/
theorem test_decodeTableWord :
    decodeTableWord 8 99 = some .hlt ∧ decodeTableWord 16 1002 = some (.mul .position .immediate) ∧
    decodeTableWord 64 (2 ^ 64 - 99) = none := by decide

/-! ### One step per instruction, with the vectors' results -/

/-- VS1: `20 + 22`, each source dereferenced once. -/
theorem test_add_position :
    (stepped ext [1, 5, 6, 7, 99, 20, 22, 0] none).map (cellView 7) = some (4, .running, 42) := by decide

/-- VA7: the sum one above the largest 64-bit value. -/
theorem test_add_overflow :
    (stepped ext [1101, 9223372036854775807, 1, 0, 99] none).map faultView =
      some (0, .faulted, some (.overflow 1, 0), [1101, 9223372036854775807, 1, 0, 99]) := by decide

/-- VA2: `-3 * 4`. -/
theorem test_mul_negative :
    (stepped ext [1102, -3, 4, 5, 99, 0] none).map (cellView 5) = some (4, .running, -12) := by decide

/-- VA14: the smallest 16-bit value is a cell value. -/
theorem test_mul_smallest :
    (stepped ext16 [1102, -128, 256, 0, 99] none).map (cellView 0) = some (4, .running, -32768) := by decide

/-- VI1, first step. -/
theorem test_in_stores :
    (stepped minimalStrict [3, 0, 4, 0, 99] (some 42)).map (cellView 0) = some (2, .running, 42) := by decide

/-- VI7: the input is missed before the bad destination is. -/
theorem test_in_without_input :
    (stepped ext [3, 77, 99] none).map faultView = some (0, .faulted, some (.noInput, 0), [3, 77, 99]) := by decide

/-- VI8. -/
theorem test_out_immediate :
    (stepped ext [104, -17, 99] none).map (fun t => (t.pc, t.out, t.outLog)) = some (2, some (-17), [-17]) := by decide

/-- VI12, second step: the second output is refused, the first stays. -/
theorem test_out_second_refused :
    ((stepped extStrict [4, 0, 4, 0, 99] none).bind nextState).map
        (fun t => (t.pc, t.fault.map (fun r => r.cause), t.out, t.outLog)) =
      some (2, some (.secondOutput 4), some 4, [4]) := by decide

/-- VJ2: a negative number is not zero. -/
theorem test_jnz_negative :
    (stepped ext [1105, -4, 3, 99] none).map (fun t => (t.pc, t.status)) = some (3, .running) := by decide

/-- VJ12: a jump that is not taken still resolves its target. -/
theorem test_jnz_untaken_target_faults :
    (stepped ext [105, 0, 50, 99] none).map faultView =
      some (0, .faulted, some (.readRange 50, 0), [105, 0, 50, 99]) := by decide

/-- VJ7: a negative target is jumped to; it is the next fetch that faults. -/
theorem test_jz_negative_target :
    (stepped ext [1106, 0, -3, 99] none).map (fun t => (t.pc, t.status)) = some (-3, .running) := by decide

/-- VJ10: not taken, three cells on. -/
theorem test_jz_untaken :
    (stepped ext [6, 4, 5, 99, 2, 3] none).map (fun t => (t.pc, t.status)) = some (3, .running) := by decide

/-- VC3: the comparison is signed. -/
theorem test_lt_signed :
    (stepped ext [1107, -9, -8, 5, 99, 7] none).map (cellView 5) = some (4, .running, 1) := by decide

/-- VC2: equal is not less, and the 0 is written. -/
theorem test_lt_equal :
    (stepped ext [1107, 2, 2, 5, 99, 7] none).map (cellView 5) = some (4, .running, 0) := by decide

/-- VC9: a cell equals itself, and is then overwritten. -/
theorem test_eq_itself :
    (stepped ext [8, 5, 5, 5, 99, -4] none).map (cellView 5) = some (4, .running, 1) := by decide

/-- VC6. -/
theorem test_eq_sign :
    (stepped ext [1108, 1, -1, 5, 99, 7] none).map (cellView 5) = some (4, .running, 0) := by decide

/-- VH1: `pc` stays at the halt word. -/
theorem test_hlt :
    (stepped ext [99, 1, 2, 3] none).map (fun t => (t.pc, t.status, t.image)) =
      some (0, .halted, [99, 1, 2, 3]) := by decide

/-- VS12, which is also what the reset state does. -/
theorem test_empty_image :
    (nextState State.reset).map faultView = some (0, .faulted, some (.fetchRange 0, 0), []) := by decide

/-- VR1, VR2, VR3: the load. -/
theorem test_load :
    load ext [1, 0, 0, 0, 99] none = some (machine ext [1, 0, 0, 0, 99] none) ∧
    load ext [3, 0, 99] (some (-6)) = some (machine ext [3, 0, 99] (some (-6))) ∧
    load ext16 [40000, 99] none = none := by decide

/-! ### Witnesses: every obligation's hypotheses are met -/

/-- Both sides of LegalWordsAreExactlyTheEncodings: a target digit 1 and unused digits above. -/
theorem witness_LegalWordsAreExactlyTheEncodings :
    decode .minimal 711001 = .ok (.add .position .immediate) ∧ Instr.wf .minimal (.add .position .immediate) = true ∧
    (711001 : Int) = encodeWith (.add .position .immediate) .immediate 7 := by decide

theorem witness_DecodeOfEncodeIsTheInstruction :
    Instr.wf .minimal (.out .immediate) = true ∧ Instr.wf .extended (.jz .immediate .position) = true := by decide

/-- The three forms of a refusal: the sign, no opcode, and the lowest bad digit at each operand position. -/
theorem witness_DecodeFaultsAreReportedInOrder :
    decode .extended (-1) = .error (.illegalOpcode (-1)) ∧ decode .minimal 5 = .error (.illegalOpcode 5) ∧
    decode .minimal 22201 = .error (.illegalMode 22201 0 2) ∧ decode .minimal 2101 = .error (.illegalMode 2101 1 2) ∧
    decode .minimal 91101 = .error (.illegalMode 91101 2 9) := by decide

/-- Word 5 at `MINIMAL`, and 9 (the first unused number) and 98 (the last) at `EXTENDED`. -/
theorem witness_UnrecognisedOpcodesFaultAtFetch :
    ((machine minimalStrict [5] none).status = .running ∧ (machine ext [9] none).status = .running) ∧
    ((machine minimalStrict [5] none).Holds 0 5 ∧ (5 : Int) % 100 ∉ ([99, 1, 2, 3, 4] : List Int)) ∧
    ((machine ext [9] none).Holds 0 9 ∧ (9 : Int) % 100 ∉ ([99, 1, 2, 3, 4, 5, 6, 7, 8] : List Int)) ∧
    (machine ext [98] none).Holds 0 98 ∧ (98 : Int) % 100 ∉ ([99, 1, 2, 3, 4, 5, 6, 7, 8] : List Int) :=
  ⟨by decide, ⟨holds_of (by decide), by decide⟩, ⟨holds_of (by decide), by decide⟩, holds_of (by decide), by decide⟩

/-- Digits 0, 1, 2 and 9, and an operand cell that names the last cell of Memory. -/
theorem witness_ModeDigitsMeanPositionImmediateOrFault :
    ((1004 : Int) / 10 ^ (2 + 0) % 10 = 0 ∧ (104 : Int) / 10 ^ (2 + 0) % 10 = 1 ∧
      2 ≤ (204 : Int) / 10 ^ (2 + 0) % 10 ∧ 2 ≤ (9004 : Int) / 10 ^ (2 + 1) % 10) ∧
    (machine ext [4, 2, 99] none).Holds ((machine ext [4, 2, 99] none).pc + 1 + (0 : Nat)) 2 ∧
    (machine ext [4, 2, 99] none).Holds 2 99 :=
  ⟨by decide, holds_of (by decide), holds_of (by decide)⟩

theorem witness_LoadGivesTheResetTable :
    load ext [1, 0, 0, 0, 99] (some 8) = some (machine ext [1, 0, 0, 0, 99] (some 8)) ∧
    4 < ([1, 0, 0, 0, 99] : List Int).length := by decide

/-- The narrowest width that loads, with both ends of its range; one narrower does not (log entry 10). -/
theorem witness_LoadMeetsTheInvariant :
    load ext16 [32767, -32768, 0] (some 32767) = some (machine ext16 [32767, -32768, 0] (some 32767)) ∧
    load ⟨.bits 15, .extended, false⟩ [0] none = none := by decide

/-- Each reason at its boundary, at `W = 16`: values, input, and the longest image that fits. -/
theorem witness_LoadRefusesExactlyWhatDoesNotFit :
    load ext16 [32767, -32768] (some (-32768)) ≠ none ∧ load ext16 [32768] none = none ∧
    load ext16 [-32769] none = none ∧ load ext16 [] (some 32768) = none ∧
    (2 ^ (16 - 1) < 32765 + 4 ∧ ¬ 2 ^ (16 - 1) < 32764 + 4) ∧ load extInf [2 ^ 100] none ≠ none := by decide

/-- A state of a run that is not a reset state: one value emitted, then a fault. -/
def faultedState : State :=
  { machine ext [104, 1, 4, 77, 99] none with
    pc := 2, out := some 1, outLog := [1], status := .faulted
    fault := some { cause := .readRange 77, fpc := 2 } }

/-- The same run before its fault. -/
def emittedState : State := { faultedState with status := .running, fault := none }

theorem witness_StepKeepsTheInvariant : emittedState.Inv ∧ step emittedState = .next faultedState := by
  refine ⟨⟨by decide, by decide, by decide, by decide, by decide, ?_, by decide, by decide, by decide, fun _ => rfl, ?_⟩,
    next_of (by decide)⟩
  · intro v h; cases h
  · intro h; cases h

theorem witness_StepKeepsTheInvariant_faulted : faultedState.Inv := by
  refine ⟨by decide, by decide, by decide, by decide, by decide, ?_, by decide, by decide, by decide, ?_, ?_⟩
  · intro v h; cases h
  · intro h; exact absurd rfl h
  · intro _; exact ⟨_, rfl⟩

/-- The addresses next to the two ends of a Memory of three cells. -/
theorem witness_CheckedReadReadsOrFaults :
    (machine ext [4, 2, 99] none).memRead .readRange (-1) = .error (.readRange (-1)) ∧
    (machine ext [4, 2, 99] none).memRead .readRange 3 = .error (.readRange 3) ∧
    (machine ext [4, 2, 99] none).memRead .readRange 0 = .ok 4 ∧
    (machine ext [4, 2, 99] none).memRead .readRange 2 = .ok 99 := by decide

theorem witness_CheckedWriteChangesOneCellOrFaults :
    (machine ext [4, 2, 99] none).memWrite (-1) 7 = .error (.writeRange (-1)) ∧
    (machine ext [4, 2, 99] none).memWrite 3 7 = .error (.writeRange 3) ∧
    (machine ext [4, 2, 99] none).memWrite 0 7 = .ok (machine ext [7, 2, 99] none) ∧
    (machine ext [4, 2, 99] none).memWrite 2 0 = .ok (machine ext [4, 2, 0] none) := by decide

/-- The store puts a halt word where an illegal word stood (program P2). -/
theorem witness_StoreIsSeenByTheNextFetch :
    (machine ext [1101, 90, 9, 4, 0] none).status = .running ∧
    (machine ext [1101, 90, 9, 4, 0] none).memWrite 4 99 = .ok (machine ext [1101, 90, 9, 4, 99] none) ∧
    decode ext.level 99 = .ok .hlt := by decide

theorem witness_StepRunsTheDecodedInstruction :
    (machine minimalStrict [99] none).status = .running ∧ (machine minimalStrict [99] none).Holds 0 99 ∧
    decode minimalStrict.level 99 = .ok .hlt :=
  ⟨by decide, holds_of (by decide), by decide⟩

/-- `pc` just outside Memory at both ends, at its last cell with a legal word, and at a word that is none. -/
theorem witness_FetchIsCheckedAndTakesAnyWord :
    (machine ext [0, 99] none).status = .running ∧
    (({ machine ext [0, 99] none with pc := -1 } : State).pc < 0 ∧
      (({ machine ext [0, 99] none with pc := 2 } : State).memLen : Int) ≤ 2) ∧
    decode ext.level ((machine ext [0, 99] none).cellAt 1) = .ok .hlt ∧
    decode ext.level ((machine ext [0, 99] none).cellAt 0) = .error (.illegalOpcode 0) := by decide

theorem witness_TerminalStatesStepToThemselves :
    faultedState.status = .faulted ∧
    ({ machine ext [99] none with status := .halted } : State).status = .halted := by decide

/-- All three clauses: a terminal state, a halt and a raise. -/
theorem witness_StatusChangesOnlyByHaltAndRaise :
    step faultedState = .next faultedState ∧
    step (machine ext [99] none) = .next { machine ext [99] none with status := .halted } ∧
    step (machine ext [0] none) = .next ((machine ext [0] none).raise (.illegalOpcode 0)) ∧
    load ext [99] none = some (machine ext [99] none) :=
  ⟨next_of (by decide), next_of (by decide), next_of (by decide), by decide⟩

/-- A running core that goes on, and one that faults. -/
theorem witness_RunningCoreAlwaysSteps :
    (machine ext [104, -17, 99] none).status = .running ∧ (machine ext [] none).status = .running := by decide

/-- Each clause: a halt, a non-jump, and each jump with and without its condition. -/
theorem witness_PointerAdvance :
    exec .hlt (machine ext [99] none) = .next { machine ext [99] none with status := .halted } ∧
    exec (.out .immediate) (machine ext [104, 5] none) =
      .next { machine ext [104, 5] none with pc := 2, out := some 5, outLog := [5] } ∧
    exec (.jnz .immediate .immediate) (machine ext [1105, 1, 9] none) = .next { machine ext [1105, 1, 9] none with pc := 9 } ∧
    exec (.jnz .immediate .immediate) (machine ext [1105, 0, 9] none) = .next { machine ext [1105, 0, 9] none with pc := 3 } ∧
    exec (.jz .immediate .immediate) (machine ext [1106, 0, 9] none) = .next { machine ext [1106, 0, 9] none with pc := 9 } ∧
    exec (.jz .immediate .immediate) (machine ext [1106, 1, 9] none) = .next { machine ext [1106, 1, 9] none with pc := 3 } :=
  ⟨next_of (by decide), next_of (by decide), next_of (by decide), next_of (by decide), next_of (by decide), next_of (by decide)⟩

/-- `ADD`, mixed modes, a sum at the top of the 16-bit range, the last cell as destination. -/
theorem witness_AddStoresTheSum :
    (machine ext16 [1001, 4, 0, 5, 32767, 0] none).OperandIs 0 (Mode.position).resolved 32767 ∧
    (machine ext16 [1001, 4, 0, 5, 32767, 0] none).OperandIs 1 (Mode.immediate).resolved 0 ∧
    (machine ext16 [1001, 4, 0, 5, 32767, 0] none).OperandIs 2 .forcedAddress 5 ∧
    ext16.width.inCell (32767 + 0) = true ∧ (machine ext16 [1001, 4, 0, 5, 32767, 0] none).IsCell 5 :=
  ⟨position_of 4 (by decide) (by decide), immediate_of (by decide), target_of (by decide), by decide, isCell_of (by decide)⟩

/-- `MUL`, a product at the bottom of the range, cell 0 as destination. -/
theorem witness_MulStoresTheProduct :
    (machine ext16 [102, -128, 4, 0, 256] none).OperandIs 0 (Mode.immediate).resolved (-128) ∧
    (machine ext16 [102, -128, 4, 0, 256] none).OperandIs 1 (Mode.position).resolved 256 ∧
    (machine ext16 [102, -128, 4, 0, 256] none).OperandIs 2 .forcedAddress 0 ∧
    ext16.width.inCell (-128 * 256) = true ∧ (machine ext16 [102, -128, 4, 0, 256] none).IsCell 0 :=
  ⟨immediate_of (by decide), position_of 4 (by decide) (by decide), target_of (by decide), by decide, isCell_of (by decide)⟩

theorem witness_InStoresTheInput :
    (machine ext [3, 2, 0] (some 99)).OperandIs 0 .forcedAddress 2 ∧ (machine ext [3, 2, 0] (some 99)).inp = some 99 ∧
    (machine ext [3, 2, 0] (some 99)).IsCell 2 :=
  ⟨target_of (by decide), by decide, isCell_of (by decide)⟩

/-- Both ways an output is allowed: no check, after an output; and the check on, before the first. -/
theorem witness_OutEmitsItsOperand :
    (emittedState.cfg.strictSingleOutput = false ∧
      ({ emittedState with pc := 0 } : State).OperandIs 0 (Mode.immediate).resolved 1) ∧
    (machine extStrict [4, 2, 99] none).out = none ∧
    (machine extStrict [4, 2, 99] none).OperandIs 0 (Mode.position).resolved 99 :=
  ⟨⟨by decide, immediate_of (by decide)⟩, by decide, position_of 2 (by decide) (by decide)⟩

theorem witness_JnzBranchesOnNonzero :
    ((machine ext [1005, 3, -3, 7] none).OperandIs 0 (Mode.position).resolved 7 ∧
      (machine ext [1005, 3, -3, 7] none).OperandIs 1 (Mode.immediate).resolved (-3) ∧ (7 : Int) ≠ 0) ∧
    (machine ext [1105, 0, 9] none).OperandIs 0 (Mode.immediate).resolved 0 ∧
    (machine ext [1105, 0, 9] none).OperandIs 1 (Mode.immediate).resolved 9 :=
  ⟨⟨position_of 3 (by decide) (by decide), immediate_of (by decide), by decide⟩, immediate_of (by decide),
    immediate_of (by decide)⟩

theorem witness_JzBranchesOnZero :
    ((machine ext [106, 0, 3, 7] none).OperandIs 0 (Mode.immediate).resolved 0 ∧
      (machine ext [106, 0, 3, 7] none).OperandIs 1 (Mode.position).resolved 7) ∧
    (machine ext [1106, -1, 9] none).OperandIs 0 (Mode.immediate).resolved (-1) ∧
    (machine ext [1106, -1, 9] none).OperandIs 1 (Mode.immediate).resolved 9 ∧ (-1 : Int) ≠ 0 :=
  ⟨⟨immediate_of (by decide), position_of 3 (by decide) (by decide)⟩, immediate_of (by decide), immediate_of (by decide),
    by decide⟩

/-- One state for both comparisons: `-1 < 0` holds, `-1 = 0` does not. -/
theorem witness_comparisons :
    (machine ext [1107, -1, 0, 3] none).OperandIs 0 (Mode.immediate).resolved (-1) ∧
    (machine ext [1107, -1, 0, 3] none).OperandIs 1 (Mode.immediate).resolved 0 ∧
    (machine ext [1107, -1, 0, 3] none).OperandIs 2 .forcedAddress 3 ∧ (machine ext [1107, -1, 0, 3] none).IsCell 3 :=
  ⟨immediate_of (by decide), immediate_of (by decide), target_of (by decide), isCell_of (by decide)⟩

theorem witness_LtStoresTheComparison :
    exec (.lt .immediate .immediate) (machine ext [1107, -1, 0, 3] none) =
        .next { machine ext [1107, -1, 0, 1] none with pc := 4 } ∧
    exec (.lt .immediate .immediate) (machine ext [1107, 0, 0, 3] none) =
        .next { machine ext [1107, 0, 0, 0] none with pc := 4 } :=
  ⟨next_of (by decide), next_of (by decide)⟩

theorem witness_EqStoresTheComparison :
    exec (.eq .immediate .immediate) (machine ext [1108, 0, 0, 3] none) =
        .next { machine ext [1108, 0, 0, 1] none with pc := 4 } ∧
    exec (.eq .immediate .immediate) (machine ext [1108, -1, 0, 3] none) =
        .next { machine ext [1108, -1, 0, 0] none with pc := 4 } :=
  ⟨next_of (by decide), next_of (by decide)⟩

/-- VF4's kind (the cell of operand 1 is missing), VF7 (operand 0 before operand 1), and the target of an untaken jump. -/
theorem witness_OperandFaultsAreTakenInOrder :
    (machine ext [1, 0] none).FirstOperandFault (Instr.modes (.add .position .position)) (.operandFetchRange 2) ∧
    (machine ext [1, 9, -1, 0, 99] none).FirstOperandFault (Instr.modes (.add .position .position)) (.readRange 9) ∧
    (machine ext [105, 0, 50, 99] none).FirstOperandFault (Instr.modes (.jnz .immediate .position)) (.readRange 50) := by
  refine ⟨⟨1, .position, rfl, .inl ⟨not_isCell_of (by decide), rfl⟩, ?_⟩,
    ⟨0, .position, rfl, .inr ⟨rfl, 9, holds_of (by decide), not_isCell_of (by decide), rfl⟩, ?_⟩,
    ⟨1, .position, rfl, .inr ⟨rfl, 50, holds_of (by decide), not_isCell_of (by decide), rfl⟩, ?_⟩⟩
  · intro j mj hj h
    obtain rfl : j = 0 := by omega
    cases h
    exact ⟨1, position_of 0 (by decide) (by decide)⟩
  · intro j mj hj _
    omega
  · intro j mj hj h
    obtain rfl : j = 0 := by omega
    cases h
    exact ⟨0, immediate_of (by decide)⟩

/-- One above the range for the sum and for the product, with a destination that is none. -/
theorem witness_OverflowIsAFault :
    ((machine ext16 [1101, 32767, 1, 77] none).OperandIs 0 (Mode.immediate).resolved 32767 ∧
      (machine ext16 [1101, 32767, 1, 77] none).OperandIs 1 (Mode.immediate).resolved 1 ∧
      (machine ext16 [1101, 32767, 1, 77] none).OperandIs 2 .forcedAddress 77 ∧ ext16.width.inCell (32767 + 1) = false) ∧
    (machine ext16 [1102, 128, 256, -1] none).OperandIs 0 (Mode.immediate).resolved 128 ∧
    (machine ext16 [1102, 128, 256, -1] none).OperandIs 1 (Mode.immediate).resolved 256 ∧
    (machine ext16 [1102, 128, 256, -1] none).OperandIs 2 .forcedAddress (-1) ∧ ext16.width.inCell (128 * 256) = false :=
  ⟨⟨immediate_of (by decide), immediate_of (by decide), target_of (by decide), by decide⟩, immediate_of (by decide),
    immediate_of (by decide), target_of (by decide), by decide⟩

theorem witness_UnboundedCellsNeverOverflow :
    ((machine extInf [1, 7, 0, 0, 99] none).cfg.width = .unbounded ∧
      (machine extInf [1, 7, 0, 0, 99] none).status = .running ∧
      ((machine extInf [1, 7, 0, 0, 99] none).raise (.readRange 7)).status = .faulted) ∧
    step (machine extInf [1, 7, 0, 0, 99] none) = .next ((machine extInf [1, 7, 0, 0, 99] none).raise (.readRange 7)) :=
  ⟨by decide, next_of (by decide)⟩

/-- The two addresses next to Memory: its length, and -1. -/
theorem witness_WriteTargetOutsideMemoryIsAFault :
    (¬ (machine ext [1101, 2, 3, 4] (some 1)).IsCell 4 ∧
      (machine ext [1101, 2, 3, 4] (some 1)).OperandIs 0 (Mode.immediate).resolved 2 ∧
      (machine ext [1101, 2, 3, 4] (some 1)).OperandIs 1 (Mode.immediate).resolved 3 ∧
      (machine ext [1101, 2, 3, 4] (some 1)).OperandIs 2 .forcedAddress 4 ∧ ext.width.inCell (2 + 3) = true ∧
      ext.width.inCell (2 * 3) = true) ∧
    ¬ (machine ext [3, -1] (some 1)).IsCell (-1) ∧ (machine ext [3, -1] (some 1)).OperandIs 0 .forcedAddress (-1) ∧
    (machine ext [3, -1] (some 1)).inp = some 1 :=
  ⟨⟨not_isCell_of (by decide), immediate_of (by decide), immediate_of (by decide), target_of (by decide), by decide,
    by decide⟩, not_isCell_of (by decide), target_of (by decide), by decide⟩

/-- No input, with a destination that is an address and with one that is none; at `MINIMAL` too. -/
theorem witness_InWithoutInputIsAFault :
    ((machine minimalStrict [3, 0, 99] none).OperandIs 0 .forcedAddress 0 ∧
      (machine minimalStrict [3, 0, 99] none).inp = none) ∧
    (machine ext [3, 77, 99] none).OperandIs 0 .forcedAddress 77 ∧ (machine ext [3, 77, 99] none).inp = none :=
  ⟨⟨target_of (by decide), by decide⟩, target_of (by decide), by decide⟩

theorem witness_SecondOutputIsAFaultWhenStrict :
    ({ machine extStrict [104, 7] none with out := some 4 } : State).OperandIs 0 (Mode.immediate).resolved 7 ∧
    extStrict.strictSingleOutput = true ∧ ({ machine extStrict [104, 7] none with out := some 4 } : State).out = some 4 :=
  ⟨immediate_of (by decide), by decide, by decide⟩

theorem witness_EachOpcodeRaisesOnlyItsCauses :
    exec (.out .position) (machine ext [4, 3, 99] none) = .next ((machine ext [4, 3, 99] none).raise (.readRange 3)) ∧
    (machine ext [4, 3, 99] none).status ≠ .faulted :=
  ⟨next_of (by decide), by decide⟩

/-- A store, a completed form that stores nothing, and a faulted one. -/
theorem witness_FrameOfEveryInstruction :
    exec (.add .immediate .immediate) (machine ext [1101, 2, 3, 5, 99, 0] none) =
      .next { machine ext [1101, 2, 3, 5, 99, 5] none with pc := 4 } ∧
    (Opcode.add.writeTarget = some 2 ∧ (machine ext [1101, 2, 3, 5, 99, 0] none).cellAt 3 = 5) ∧
    exec (.jz .immediate .immediate) (machine ext [1106, 0, 9] none) = .next { machine ext [1106, 0, 9] none with pc := 9 } ∧
    exec .inp (machine ext [3, 0] none) = .next ((machine ext [3, 0] none).raise .noInput) :=
  ⟨next_of (by decide), by decide, next_of (by decide), next_of (by decide)⟩

/-- Each clause: the load, an `OUT`, another instruction, and read-back. -/
theorem witness_OutputLatchIsOuts :
    load ext [104, 5] none = some (machine ext [104, 5] none) ∧
    exec (.out .immediate) (machine ext [104, 5] none) =
      .next { machine ext [104, 5] none with pc := 2, out := some 5, outLog := [5] } ∧
    (Instr.opcode .hlt ≠ .out ∧ exec .hlt (machine ext [99] none) = .next { machine ext [99] none with status := .halted }) ∧
    ({ machine ext [99] none with status := .halted } : State).status = .halted :=
  ⟨by decide, next_of (by decide), ⟨by decide, next_of (by decide)⟩, by decide⟩

theorem witness_InputIsReadOnlyByIn :
    (machine ext [104, 5] none).Holds 0 104 ∧ decode ext.level 104 = .ok (.out .immediate) ∧
    Instr.opcode (.out .immediate) ≠ .inp ∧ (machine ext [104, 5] none).status = .running ∧
    step (machine ext [104, 5] none) = .next { machine ext [104, 5] none with pc := 2, out := some 5, outLog := [5] } :=
  ⟨holds_of (by decide), by decide, by decide, by decide, next_of (by decide)⟩

/-- A step from a running state; it emits, so both sides of OutputLogOnlyGrows occur here and in the next witness. -/
theorem witness_LogAndDefectAreNeverRead :
    (machine ext [104, 5] none).status = .running ∧
    step (machine ext [104, 5] none) = .next { machine ext [104, 5] none with pc := 2, out := some 5, outLog := [5] } :=
  ⟨by decide, next_of (by decide)⟩

theorem witness_OutputLogOnlyGrows :
    step (machine ext [1106, 0, 9] none) = .next { machine ext [1106, 0, 9] none with pc := 9 } :=
  next_of (by decide)

/-- More opcodes and no output check; and wider cells. -/
theorem witness_Within : minimalStrict.Within ext ∧ ext16.Within ext := by
  refine ⟨⟨.inl rfl, .inl rfl, fun _ h => h⟩, .inr rfl, .inr rfl, ?_⟩
  intro v h
  simp [ext16, ext, Config.default, Width.inCell] at *
  omega

theorem witness_WiderConfigurationTakesTheSameStep :
    (machine minimalStrict [104, 5] none).cfg.Within ext ∧
    step (machine minimalStrict [104, 5] none) =
      .next { machine minimalStrict [104, 5] none with pc := 2, out := some 5, outLog := [5] } :=
  ⟨witness_Within.1, next_of (by decide)⟩

theorem witness_WiderConfigurationRefinesHaltingRuns :
    (machine ext16 [104, 5, 99] none).cfg.Within ext ∧
    runToEnd 2 (machine ext16 [104, 5, 99] none) =
      some { machine ext16 [104, 5, 99] none with pc := 2, out := some 5, outLog := [5], status := .halted } :=
  ⟨witness_Within.2, by decide⟩

/-- Both ends of a run. -/
theorem witness_LoadedRunsEndHaltedOrFaulted :
    (load ext [99] none = some (machine ext [99] none) ∧
      runToEnd 1 (machine ext [99] none) = some { machine ext [99] none with status := .halted }) ∧
    load ext [0] none = some (machine ext [0] none) ∧
    runToEnd 1 (machine ext [0] none) = some ((machine ext [0] none).raise (.illegalOpcode 0)) := by decide

/-- A run that ends within one step, and is given none, one and two. -/
theorem witness_EndOfARunDoesNotDependOnTheStepLimit :
    runToEnd 0 (machine ext [99] none) = none ∧
    runToEnd 1 (machine ext [99] none) = some { machine ext [99] none with status := .halted } ∧
    runToEnd 2 (machine ext [99] none) = some { machine ext [99] none with status := .halted } := by decide

/-- VJ13, and the same with `JZ`. -/
theorem witness_JumpToItselfNeverEnds :
    ((machine ext [1105, 1, 0] none).status = .running ∧ (machine ext [1105, 1, 0] none).Holds 0 1105 ∧
      (machine ext [1105, 1, 0] none).OperandIs 0 (Mode.immediate).resolved 1 ∧
      (machine ext [1105, 1, 0] none).OperandIs 1 (Mode.immediate).resolved 0 ∧
      decode ext.level 1105 = .ok (.jnz .immediate .immediate) ∧ (1 : Int) ≠ 0) ∧
    (machine ext [1106, 0, 0] none).status = .running ∧ (machine ext [1106, 0, 0] none).Holds 0 1106 ∧
    (machine ext [1106, 0, 0] none).OperandIs 0 (Mode.immediate).resolved 0 ∧
    (machine ext [1106, 0, 0] none).OperandIs 1 (Mode.immediate).resolved 0 ∧
    decode ext.level 1106 = .ok (.jz .immediate .immediate) :=
  ⟨⟨by decide, holds_of (by decide), immediate_of (by decide), immediate_of (by decide), by decide, by decide⟩, by decide,
    holds_of (by decide), immediate_of (by decide), immediate_of (by decide), by decide⟩

/-- The reset state itself, with the word of `HLT` placed; and a halted state with a negative `pc`. -/
theorem witness_FetchWordRunsTheTableInstruction :
    State.reset.cfg = Config.default .extended ∧ decodeTableWord 8 99 = some .hlt ∧
    (nextState (State.reset.withFetchWord 8 99)).map (fun t => (t.pc, t.status)) = some (0, .halted) ∧
    (nextState (({ State.reset with pc := -5, status := .halted } : State).withFetchWord 16 1105)).map (fun t => t.pc) =
      some 3 := by decide

end Sys2Proof.Tests
end

section
/-!
The run status (R27): the three ways a step of a running machine can end, and from them what moves the status.
-/
namespace Sys2Proof.Machine

variable {s t : State}

/-- `LOAD` leaves the machine running at address 0 (R35). -/
theorem status_and_pc_of_load {c : Config} {image : List Int} {input : Option Int}
    (h : load c image input = some s) : s.status = .running ∧ s.pc = 0 := by
  obtain ⟨-, -, -, -, rfl⟩ := (load_eq_some_iff c image input s).mp h
  exact ⟨rfl, rfl⟩

/-- An executed instruction raises, or is `HLT` and halts, or leaves the status alone. -/
theorem exec_status_cases {i : Instr} (h : exec i s = .next t) :
    (∃ c, s.FaultsTo t c) ∨ (i = .hlt ∧ t.status = .halted) ∨ t.status = s.status := by
  rcases exec_cases h with ⟨c, rfl, -⟩ | ⟨hi, rfl⟩ | ⟨-, -, -, -, -, -, rfl, -⟩ | ⟨-, -, -, -, -, rfl⟩ |
    ⟨-, -, -, -, -, -, -, rfl⟩
  · exact .inl ⟨c, s.raise_faultsTo c⟩
  · exact .inr (.inl ⟨hi, rfl⟩)
  · exact .inr (.inr rfl)
  · exact .inr (.inr rfl)
  · exact .inr (.inr rfl)

/-- A step of a running machine is fault entry, or ends `Halted` and the word at `pc` is `HLT`'s, or goes on running. -/
theorem step_status_cases (hr : s.status = .running) (h : step s = .next t) :
    (∃ c, s.FaultsTo t c) ∨
    (t.status = .halted ∧ ∃ w, s.Holds s.pc w ∧ decode s.cfg.level w = .ok .hlt) ∨
    t.status = .running := by
  rcases step_cases h with ⟨hn, -⟩ | ⟨-, -, rfl⟩ | ⟨-, d, -, -, -, rfl⟩ | ⟨w, i, -, hw, hd, he⟩
  · exact absurd hr hn
  · exact .inl ⟨_, s.raise_faultsTo _⟩
  · exact .inl ⟨_, s.raise_faultsTo _⟩
  · rcases exec_status_cases he with hf | ⟨rfl, ht⟩ | ht
    · exact .inl hf
    · exact .inr (.inl ⟨ht, w, hw, hd⟩)
    · exact .inr (.inr (ht.trans hr))

/-- A state after fault entry is `Faulted` (R164). -/
theorem State.FaultsTo.status_eq {c : FaultCause} (h : s.FaultsTo t c) : t.status = .faulted := by
  rw [(State.faultsTo_iff s t c).mp h, State.raise_status]

/-- A step never leaves a terminal status (R90). -/
theorem step_status_of_not_running (hr : s.status ≠ .running) (h : step s = .next t) : t.status = s.status := by
  rw [step_of_not_running hr, Host.Outcome.next.injEq] at h
  rw [h]

/-- A running machine halts only at a word that decodes to `HLT`. -/
theorem decode_hlt_of_step_halted (hr : s.status = .running) (h : step s = .next t) (ht : t.status = .halted) :
    ∃ w, s.Holds s.pc w ∧ decode s.cfg.level w = .ok .hlt := by
  rcases step_status_cases hr h with ⟨c, hf⟩ | ⟨-, hw⟩ | hrun
  · exact absurd (ht.symm.trans hf.status_eq) (by decide)
  · exact hw
  · exact absurd (ht.symm.trans hrun) (by decide)

/-- A running machine becomes faulted only by fault entry. -/
theorem faultsTo_of_step_faulted (hr : s.status = .running) (h : step s = .next t) (ht : t.status = .faulted) :
    ∃ c, s.FaultsTo t c := by
  rcases step_status_cases hr h with hf | ⟨hhalt, -⟩ | hrun
  · exact hf
  · exact absurd (ht.symm.trans hhalt) (by decide)
  · exact absurd (ht.symm.trans hrun) (by decide)

/-- Settles O20, from the three ways a step of a running machine can end. -/
theorem statusChangesOnlyByHaltAndRaise : Obligations.StatusChangesOnlyByHaltAndRaise :=
  ⟨fun _ _ _ _ => status_and_pc_of_load, fun _ _ h =>
    ⟨fun hr => step_status_of_not_running hr h, fun hr => decode_hlt_of_step_halted hr h,
      fun hr => faultsTo_of_step_faulted hr h⟩⟩

end Sys2Proof.Machine
end

section
/-!
The checked memory operations of `20_memory.md` (R43, R44), from what a checked read and a checked write can answer.
-/
namespace Sys2Proof.Machine

/-- Outside Memory, in the two comparisons of R43 and R44. -/
theorem State.not_isCell_iff (s : State) (a : Int) : ¬ s.IsCell a ↔ a < 0 ∨ (s.memLen : Int) ≤ a := by
  simp only [State.IsCell]
  omega

/-- Settles O15: outside Memory from the write's one failure, inside from the frame of a store that leaves `pc` alone. -/
theorem checkedWriteChangesOneCellOrFaults : Obligations.CheckedWriteChangesOneCellOrFaults := by
  intro s a v
  constructor
  · intro hout
    exact (s.memWrite_eq_error_iff a v _).mpr ⟨(s.not_isCell_iff a).mpr hout, rfl⟩
  · intro h0 hN
    have ha : s.IsCell a := ⟨h0, hN⟩
    exact ⟨_, (s.memWrite_eq_ok_iff _ a v).mpr ⟨ha, rfl⟩, s.stores_put a v s.pc ha⟩

/-- Settles O14: the read fails exactly outside Memory, and inside it answers the cell's content. -/
theorem checkedReadReadsOrFaults : Obligations.CheckedReadReadsOrFaults := by
  intro s cause a
  constructor
  · intro hout
    exact (s.memRead_eq_error_iff cause a _).mpr ⟨(s.not_isCell_iff a).mpr hout, rfl⟩
  · intro h0 hN
    exact (s.memRead_eq_ok_iff cause a _).mpr ⟨⟨h0, hN⟩, rfl⟩

end Sys2Proof.Machine
end

section
/-!
The mode digits of `30_encoding.md` (R63): the digit a mode is read from, and the value an operand cell and its mode give.
-/
namespace Sys2Proof

/-- `dig(w, k)` is the arithmetic of R8. -/
theorem dig_eq_ediv_emod (w : Int) (k : Nat) : dig w k = w / 10 ^ k % 10 := by
  simp only [dig, Nat.pow_eq, Nat.cast_pow, Nat.cast_ofNat]

/-- The Decoder reads the operands of the opcode it extracted. -/
theorem decode_eq_of_decodeOpcode {l : IsaLevel} {w : Int} {o : Opcode} (h : decodeOpcode l w = .ok o) :
    decode l w = decodeOperands w o := by
  rw [decode, h, Except.bind]

/-- The contract's form reads the mode list of the opcode it extracted. -/
theorem decodeContract_eq_of_decodeOpcode {l : IsaLevel} {w : Int} {o : Opcode} (h : decodeOpcode l w = .ok o) :
    decodeContract l w = (decodeModesFrom w o 0 o.arity).map fun ms => (o, o.arity, ms) := by
  rw [decodeContract, h, Except.bind]

end Sys2Proof

namespace Sys2Proof.Machine

/-- An Immediate operand is the operand cell's word itself. -/
theorem State.valueOperand_immediate_of_holds {s : State} {k : Nat} {raw : Int} (h : s.Holds (s.pc + 1 + k) raw) :
    s.valueOperand k .immediate = .ok raw :=
  (s.valueOperand_eq_ok_iff k .immediate raw).mpr h

/-- A Position operand is the word of the cell that the operand cell names. -/
theorem State.valueOperand_position_of_holds {s : State} {k : Nat} {raw v : Int} (h : s.Holds (s.pc + 1 + k) raw)
    (hv : s.Holds raw v) : s.valueOperand k .position = .ok v :=
  (s.valueOperand_eq_ok_iff k .position v).mpr ⟨raw, h, hv⟩

/-- Settles O6: the digit decides what the mode check answers, the mode what the operand cell's word stands for. -/
theorem modeDigitsMeanPositionImmediateOrFault : Obligations.ModeDigitsMeanPositionImmediateOrFault := by
  intro w k _
  rw [← dig_eq_ediv_emod]
  refine ⟨(modeAt_eq_position_iff w k).mpr, (modeAt_eq_immediate_iff w k).mpr, fun h => ?_, fun s raw hraw => ?_⟩
  · exact (modeAt_eq_error_iff w k _).mpr ⟨by omega, by omega, rfl⟩
  · exact ⟨State.valueOperand_immediate_of_holds hraw, fun v => State.valueOperand_position_of_holds hraw⟩

/-- Settles O7: MUL is extracted at both levels, and from there on the level plays no part. -/
theorem workedDecodeExample : Obligations.WorkedDecodeExample := by
  intro l
  have hop : decodeOpcode l 1002 = .ok .mul :=
    (decodeOpcode_eq_ok_iff l 1002 .mul).mpr ⟨by decide, by decide, by cases l <;> decide⟩
  have h0 : modeAt 1002 0 = .ok .position := (modeAt_eq_position_iff 1002 0).mpr (by decide)
  have h1 : modeAt 1002 1 = .ok .immediate := (modeAt_eq_immediate_iff 1002 1).mpr (by decide)
  have h2 : modeAt 1002 2 = .ok .position := (modeAt_eq_position_iff 1002 2).mpr (by decide)
  rw [decodeContract_eq_of_decodeOpcode hop, decode_eq_of_decodeOpcode hop]
  constructor
  · simp only [Opcode.arity, decodeModesFrom, decodeMode, h0, h1, h2]
    rfl
  · simp only [decodeOperands, h0, h1, h2]
    rfl

end Sys2Proof.Machine
end

section
/-!
The fetch of the step (R92): the checked read at `pc`, then the Decoder's answer to whatever word it found.
-/
namespace Sys2Proof.Machine

/-- Settles O18: outside Memory the step is the fetch fault; inside, the cell's content is the word and the Decoder decides. -/
theorem fetchIsCheckedAndTakesAnyWord : Obligations.FetchIsCheckedAndTakesAnyWord := by
  intro s hr
  constructor
  · intro hout
    exact ⟨_, step_of_fetch_fault hr ((s.not_isCell_iff s.pc).mpr hout), s.raise_faultsTo _⟩
  · intro h0 hN
    have hw : s.Holds s.pc (s.cellAt s.pc) := ⟨⟨h0, hN⟩, rfl⟩
    constructor
    · exact fun i hd => step_of_decode hr hw hd
    · exact fun d hd => ⟨_, step_of_decode_fault hr hw hd, s.raise_faultsTo _⟩

end Sys2Proof.Machine
end

section
/-!
No step is without an answer (R173): the end of an instruction, an executed instruction and a step each answer a next state.
-/
namespace Sys2Proof.Machine

/-- The end of a step answers a next state: its effects, or fault entry (R99). -/
theorem State.exists_settle_eq_next (s : State) (r : Except FaultCause State) : ∃ t, s.settle r = .next t := by
  cases r with
  | ok t => exact ⟨t, s.settle_ok t⟩
  | error c => exact ⟨s.raise c, s.settle_error c⟩

/-- An executed instruction answers a next state: `HLT` at once, every other one by the end it settles. -/
theorem exists_exec_eq_next (i : Instr) (s : State) : ∃ t, exec i s = .next t := by
  cases i with
  | hlt => exact ⟨_, rfl⟩
  | add | mul | inp | out | jnz | jz | lt | eq => exact s.exists_settle_eq_next _

/-- A step of a running machine answers a next state: fault entry at the fetch or in the Decoder, or what the decoded
instruction answers (R91). -/
theorem exists_step_eq_next {s : State} (hr : s.status = .running) : ∃ t, step s = .next t := by
  by_cases hpc : s.IsCell s.pc
  · have hw : s.Holds s.pc (s.cellAt s.pc) := ⟨hpc, rfl⟩
    cases hd : decode s.cfg.level (s.cellAt s.pc) with
    | error d => exact ⟨_, step_of_decode_fault hr hw hd⟩
    | ok i =>
      rw [step_of_decode hr hw hd]
      exact exists_exec_eq_next i s
  · exact ⟨_, step_of_fetch_fault hr hpc⟩

/-- Settles O21: the step answers some state, and a running machine becomes faulted only by fault entry. -/
theorem runningCoreAlwaysSteps : Obligations.RunningCoreAlwaysSteps := by
  intro s hr
  obtain ⟨t, ht⟩ := exists_step_eq_next hr
  refine ⟨t, ht, ?_⟩
  by_cases hf : t.status = .faulted
  · exact .inr (faultsTo_of_step_faulted hr ht hf)
  · exact .inl hf

end Sys2Proof.Machine
end

section
/-!
The invariant from `LOAD` on (`State.Inv`): it holds after a load, each way a step can change the state keeps it, and so every
step keeps it.
-/
namespace Sys2Proof

theorem Opcode.arity_le_three (o : Opcode) : o.arity ≤ 3 := by
  cases o <;> decide

/-- No instruction is wider than four cells (R60). -/
theorem Instr.width_le_four (i : Instr) : i.width ≤ 4 :=
  Nat.add_le_add_left i.opcode.arity_le_three 1

end Sys2Proof

namespace Sys2Proof.Machine

/-! ### After a load -/

/-- Settles O12: the accepted load names the state, and its tests are the invariant's clauses on image, input and length. -/
theorem loadMeetsTheInvariant : Obligations.LoadMeetsTheInvariant := by
  intro c image input s h
  obtain ⟨hwf, hlen, himage, hinput, rfl⟩ := (load_eq_some_iff c image input s).mp h
  exact
    { cfgWf := hwf
      memWf := Memory.ofImage_wf image
      cells := fun e he => himage _ (Memory.mem_ofImage image 0 e he).2.2.2
      lengthFits := hlen
      pcCell := inCell_of_small c hwf 0 (by decide) (by decide)
      inpCell := hinput
      logCells := fun v hv => absurd hv List.not_mem_nil
      outIsLast := rfl
      strictOnce := fun _ => Nat.zero_le 1
      faultNone := fun _ => rfl
      faultSome := fun hf => nomatch hf }

/-- The reset state is the load of the empty image without an input at `EXTENDED`'s default configuration (log entry 2). -/
theorem load_nil_eq_reset : load (Config.default .extended) [] none = some State.reset := by
  decide

/-- Settles O11: reset is one of the accepted loads. -/
theorem resetMeetsTheInvariant : Obligations.ResetMeetsTheInvariant :=
  loadMeetsTheInvariant _ _ _ _ load_nil_eq_reset

/-! ### What keeps the invariant -/

variable {s t : State}

/-- Fault entry keeps the invariant: the defect it records points at `pc` (R164). -/
theorem State.Inv.raise (hi : s.Inv) (c : FaultCause) : (s.raise c).Inv :=
  { hi with
    faultNone := fun h => absurd rfl h
    faultSome := fun _ => ⟨c, rfl⟩ }

/-- Halting keeps the invariant of a machine that is running. -/
theorem State.Inv.halt (hi : s.Inv) (hr : s.status = .running) : State.Inv { s with status := .halted } :=
  { hi with
    faultNone := fun _ => hi.faultNone (by simp [hr])
    faultSome := fun h => absurd h (by decide : Status.halted ≠ .faulted) }

/-- A running machine may go on at any `pc` that is a `Cell` value: no recorded defect points at the old one. -/
theorem State.Inv.setPc (hi : s.Inv) (hr : s.status = .running) {p : Int} (hp : s.cfg.width.inCell p = true) :
    State.Inv { s with pc := p } :=
  { hi with
    pcCell := hp
    faultSome := fun h => absurd (hr.symm.trans h) (by decide) }

/-- Storing a `Cell` value in a cell of Memory keeps the invariant. -/
theorem State.Inv.put (hi : s.Inv) {dest r : Int} (hd : s.IsCell dest) (hr : s.cfg.width.inCell r = true) :
    State.Inv { s with mem := Memory.put s.mem dest.toNat r } :=
  { hi with
    memWf := by
      obtain ⟨h0, hN⟩ := hd
      exact Memory.put_wf s.memLen s.mem dest.toNat r (by omega) hi.memWf
    cells := fun e he => by
      rcases Memory.mem_put s.mem dest.toNat r e he with ⟨rfl, -⟩ | he
      · exact hr
      · exact hi.cells e he }

/-- A machine that has emitted nothing has an empty log: the latch is the log's last entry. -/
theorem State.Inv.outLog_eq_nil (hi : s.Inv) (h : s.out = none) : s.outLog = [] :=
  List.getLast?_eq_none_iff.mp (hi.outIsLast.symm.trans h)

/-- Emitting a `Cell` value keeps the invariant where the output check lets it pass. -/
theorem State.Inv.emit (hi : s.Inv) {v : Int} (hv : s.cfg.width.inCell v = true)
    (hcheck : ¬ (s.cfg.strictSingleOutput = true ∧ s.out.isSome = true)) :
    State.Inv { s with out := some v, outLog := s.outLog ++ [v] } :=
  { hi with
    logCells := fun x hx => by
      rcases List.mem_append.mp hx with hx | hx
      · exact hi.logCells x hx
      · exact List.mem_singleton.mp hx ▸ hv
    outIsLast := by simp
    strictOnce := fun hstrict => by
      have hnone : s.out = none := by simpa using not_and.mp hcheck hstrict
      simp [hi.outLog_eq_nil hnone] }

/-- From a cell of Memory, up to four cells on is a `Cell` value: the bound on `N` leaves that room (R23). -/
theorem State.Inv.advance_inCell (hi : s.Inv) (hpc : s.IsCell s.pc) {n : Nat} (hn : n ≤ 4) :
    s.cfg.width.inCell (s.pc + n) = true := by
  obtain ⟨h0, hN⟩ := hpc
  exact inCell_near_memory _ s.memLen hi.lengthFits _ (by omega) (by omega)

/-- An instruction executed at a cell of Memory keeps the invariant. -/
theorem State.Inv.exec (hi : s.Inv) (hr : s.status = .running) (hpc : s.IsCell s.pc) {i : Instr}
    (h : exec i s = .next t) : t.Inv := by
  rcases exec_cases h with ⟨c, rfl, -⟩ | ⟨-, rfl⟩ | ⟨k, dest, r, -, -, hd, rfl, hcell⟩ |
    ⟨m0, v, -, hv, hcheck, rfl⟩ | ⟨m0, m1, a, target, -, -, htarget, rfl⟩
  · exact hi.raise c
  · exact hi.halt hr
  · exact (hi.put hd (hcell hi)).setPc hr (hi.advance_inCell hpc i.width_le_four)
  · exact (hi.emit (hi.operand_inCell hv) hcheck).setPc hr (hi.advance_inCell hpc (by decide : 2 ≤ 4))
  · refine hi.setPc hr ?_
    split
    · exact hi.operand_inCell htarget
    · exact hi.advance_inCell hpc (by decide : 3 ≤ 4)

/-- Settles O13: a step is nothing at all, fault entry, or an instruction executed at the cell it was fetched from. -/
theorem stepKeepsTheInvariant : Obligations.StepKeepsTheInvariant := by
  intro s t hi h
  rcases step_cases h with ⟨-, rfl⟩ | ⟨-, -, rfl⟩ | ⟨w, d, -, -, -, rfl⟩ | ⟨w, i, hr, hw, -, he⟩
  · exact hi
  · exact hi.raise _
  · exact hi.raise _
  · exact hi.exec hr hw.1 he

end Sys2Proof.Machine
end

section
/-!
The two forms of the Decoder (R74) agree, and from the contract's form, which goes through the operands by index, the order
in which decode faults are reported (R75).
-/
namespace Sys2Proof

/-! ### The two forms -/

/-- The mode digits of a word, read with opcode `o`, in the contract's form and in the machine's: same faults, same modes. -/
theorem decodeModesFrom_eq_decodeOperands (w : Int) (o : Opcode) :
    ((decodeModesFrom w o 0 o.arity).map fun ms => (o, o.arity, ms)) =
      (decodeOperands w o).map fun i => (i.opcode, i.arity, i.modes) := by
  cases o with
  | hlt => rfl
  | inp | out =>
    simp only [Opcode.arity, decodeModesFrom, decodeMode, decodeOperands]
    cases modeAt w 0 <;> rfl
  | jnz | jz =>
    simp only [Opcode.arity, decodeModesFrom, decodeMode, decodeOperands]
    cases modeAt w 0 with
    | error d => rfl
    | ok m0 => cases modeAt w 1 <;> rfl
  | add | mul | lt | eq =>
    simp only [Opcode.arity, decodeModesFrom, decodeMode, decodeOperands]
    cases modeAt w 0 with
    | error d => rfl
    | ok m0 =>
      cases modeAt w 1 with
      | error d => rfl
      | ok m1 => cases modeAt w 2 <;> rfl

/-- Settles O3: both forms read the opcode alike, and then the mode digits alike. -/
theorem decoderMeetsItsContract : Obligations.DecoderMeetsItsContract := by
  intro l w
  cases hop : decodeOpcode l w with
  | error d => simp only [decodeContract, decode, hop, Except.bind, Except.map]
  | ok o =>
    rw [decodeContract_eq_of_decodeOpcode hop, decode_eq_of_decodeOpcode hop]
    exact decodeModesFrom_eq_decodeOperands w o

/-! ### The faults -/

/-- No opcode is extracted from a word exactly if it is negative or its low two digits are no number of the level (R67, R69). -/
theorem decodeOpcode_eq_error_iff (l : IsaLevel) (w : Int) (d : DecodeFault) :
    decodeOpcode l w = .error d ↔
      d = .illegalOpcode w ∧ (w < 0 ∨ ∀ o ∈ l.recognised, w % 100 ≠ o.number) := by
  constructor
  · intro h
    refine ⟨decodeOpcode_eq_error l w d h, ?_⟩
    by_contra hcon
    push Not at hcon
    obtain ⟨hw, o, ho, hn⟩ := hcon
    rw [(decodeOpcode_eq_ok_iff l w o).mpr ⟨hw, hn, ho⟩] at h
    cases h
  · rintro ⟨rfl, hbad⟩
    cases hop : decodeOpcode l w with
    | error d => rw [decodeOpcode_eq_error l w d hop]
    | ok o =>
      obtain ⟨hw, hn, ho⟩ := (decodeOpcode_eq_ok_iff l w o).mp hop
      rcases hbad with hneg | hnone
      · omega
      · exact absurd hn (hnone o ho)

/-- The contract's mode of an operand faults where the mode check does. -/
theorem decodeMode_eq_error_iff (w : Int) (o : Opcode) (k : Nat) (d : DecodeFault) :
    decodeMode w o k = .error d ↔ modeAt w k = .error d := by
  unfold decodeMode
  cases modeAt w k <;> simp [Except.map]

/-- The digits that `decode_mode` takes (R63): the mode check at operand `k` does not fault. -/
def GoodDigit (w : Int) (k : Nat) : Prop := dig w (2 + k) = 0 ∨ dig w (2 + k) = 1

theorem goodDigit_of_modeAt_ok {w : Int} {k : Nat} {m : Mode} (h : modeAt w k = .ok m) : GoodDigit w k := by
  cases m with
  | position => exact .inl ((modeAt_eq_position_iff w k).mp h)
  | immediate => exact .inr ((modeAt_eq_immediate_iff w k).mp h)

theorem not_goodDigit_of_modeAt_error {w : Int} {k : Nat} {d : DecodeFault} (h : modeAt w k = .error d) :
    ¬ GoodDigit w k := by
  obtain ⟨h0, h1, -⟩ := (modeAt_eq_error_iff w k d).mp h
  exact not_or_intro h0 h1

/-- The contract's mode of an operand is read only at a good digit. -/
theorem goodDigit_of_decodeMode_ok {w : Int} {o : Opcode} {k : Nat} {m : OperandMode} (h : decodeMode w o k = .ok m) :
    GoodDigit w k := by
  unfold decodeMode at h
  cases hm : modeAt w k with
  | error d => simp [hm, Except.map] at h
  | ok m' => exact goodDigit_of_modeAt_ok hm

/-- Reading modes from operand `i` on goes past a good digit to the next operand. -/
theorem decodeModesFrom_succ_eq_error_iff {w : Int} {o : Opcode} {n i : Nat} {m : OperandMode} (d : DecodeFault)
    (h : decodeMode w o i = .ok m) :
    decodeModesFrom w o i (n + 1) = .error d ↔ decodeModesFrom w o (i + 1) n = .error d := by
  simp only [decodeModesFrom, h, Except.bind]
  cases decodeModesFrom w o (i + 1) n <;> simp [Except.map]

/-- Reading `n` modes from operand `i` on faults exactly at the first bad digit among them (R75). -/
theorem decodeModesFrom_eq_error_iff (w : Int) (o : Opcode) (n i : Nat) (d : DecodeFault) :
    decodeModesFrom w o i n = .error d ↔
      ∃ k, i ≤ k ∧ k < i + n ∧ modeAt w k = .error d ∧ ∀ j, i ≤ j → j < k → GoodDigit w j := by
  induction n generalizing i with
  | zero =>
    simp only [decodeModesFrom, reduceCtorEq, false_iff]
    rintro ⟨k, hi, hk, -⟩
    omega
  | succ n ih =>
    cases hm : decodeMode w o i with
    | error e =>
      have hbad := (decodeMode_eq_error_iff w o i e).mp hm
      simp only [decodeModesFrom, hm, Except.bind, Except.error.injEq]
      constructor
      · rintro rfl
        exact ⟨i, le_rfl, by omega, hbad, fun j hj hji => by omega⟩
      · rintro ⟨k, hik, -, hk, hlow⟩
        rcases hik.eq_or_lt with rfl | hlt
        · exact Except.error.inj (hbad.symm.trans hk)
        · exact absurd (hlow i le_rfl hlt) (not_goodDigit_of_modeAt_error hbad)
    | ok m =>
      have hgood := goodDigit_of_decodeMode_ok hm
      rw [decodeModesFrom_succ_eq_error_iff d hm, ih]
      constructor
      · rintro ⟨k, hik, hk, hbad, hlow⟩
        refine ⟨k, by omega, by omega, hbad, fun j hj hjk => ?_⟩
        rcases hj.eq_or_lt with rfl | hlt
        · exact hgood
        · exact hlow j hlt hjk
      · rintro ⟨k, hik, hk, hbad, hlow⟩
        rcases hik.eq_or_lt with rfl | hlt
        · exact absurd hgood (not_goodDigit_of_modeAt_error hbad)
        · exact ⟨k, hlt, by omega, hbad, fun j hj hjk => hlow j (by omega) hjk⟩

/-- The machine's form faults, once the opcode is known, exactly at the first bad digit of its operands. -/
theorem decodeOperands_eq_error_iff (w : Int) (o : Opcode) (d : DecodeFault) :
    decodeOperands w o = .error d ↔
      ∃ k, k < o.arity ∧ modeAt w k = .error d ∧ ∀ j < k, GoodDigit w j := by
  have hforms : decodeOperands w o = .error d ↔ decodeModesFrom w o 0 o.arity = .error d := by
    have h := decodeModesFrom_eq_decodeOperands w o
    cases hd : decodeOperands w o <;> cases hm : decodeModesFrom w o 0 o.arity <;> simp_all [Except.map]
  simpa [hforms] using decodeModesFrom_eq_error_iff w o o.arity 0 d

/-- A decode fault is the opcode's, or that of the operands of the opcode that was extracted. -/
theorem decode_eq_error_iff (l : IsaLevel) (w : Int) (d : DecodeFault) :
    decode l w = .error d ↔
      decodeOpcode l w = .error d ∨ ∃ o, decodeOpcode l w = .ok o ∧ decodeOperands w o = .error d := by
  unfold decode
  cases decodeOpcode l w <;> simp [Except.bind]

/-- An opcode fault is reported exactly where no opcode is extracted: the operands' faults are of the other kind. -/
theorem decode_eq_illegalOpcode_iff (l : IsaLevel) (w : Int) :
    decode l w = .error (.illegalOpcode w) ↔ w < 0 ∨ ∀ o ∈ l.recognised, w % 100 ≠ o.number := by
  rw [decode_eq_error_iff, decodeOpcode_eq_error_iff]
  constructor
  · rintro (⟨-, h⟩ | ⟨o, -, h⟩)
    · exact h
    · obtain ⟨k, -, hbad, -⟩ := (decodeOperands_eq_error_iff w o _).mp h
      cases ((modeAt_eq_error_iff w k _).mp hbad).2.2
  · exact fun h => .inl ⟨rfl, h⟩

/-- A mode fault is reported exactly at the first bad digit of an opcode that was extracted. -/
theorem decode_eq_illegalMode_iff (l : IsaLevel) (w : Int) (k : Nat) (d : Int) :
    decode l w = .error (.illegalMode w k d) ↔
      ∃ o, decodeOpcode l w = .ok o ∧ k < o.arity ∧ d = dig w (2 + k) ∧ d ≠ 0 ∧ d ≠ 1 ∧ ∀ j < k, GoodDigit w j := by
  rw [decode_eq_error_iff, decodeOpcode_eq_error_iff]
  simp only [decodeOperands_eq_error_iff, modeAt_eq_error_iff, reduceCtorEq, false_and, false_or]
  constructor
  · rintro ⟨o, hop, j, hj, ⟨h0, h1, hd⟩, hlow⟩
    obtain ⟨-, rfl, rfl⟩ := DecodeFault.illegalMode.inj hd
    exact ⟨o, hop, hj, rfl, h0, h1, hlow⟩
  · rintro ⟨o, hop, hk, rfl, h0, h1, hlow⟩
    exact ⟨o, hop, k, hk, ⟨h0, h1, rfl⟩, hlow⟩

/-- Settles O4: the sign and the opcode come first, then the lowest bad digit, and there is no third kind of fault. -/
theorem decodeFaultsAreReportedInOrder : Obligations.DecodeFaultsAreReportedInOrder := by
  intro l w
  refine ⟨decode_eq_illegalOpcode_iff l w, fun k d => ?_, fun f hf => ?_⟩
  · simp only [decode_eq_illegalMode_iff, decodeOpcode_eq_ok_iff, GoodDigit, dig_eq_ediv_emod]
    constructor
    · rintro ⟨o, ⟨hw, hn, ho⟩, hk, hd, h0, h1, hlow⟩
      exact ⟨hw, hd, h0, h1, o, ho, hn, hk, hlow⟩
    · rintro ⟨hw, hd, h0, h1, o, ho, hn, hk, hlow⟩
      exact ⟨o, ⟨hw, hn, ho⟩, hk, hd, h0, h1, hlow⟩
  · rcases (decode_eq_error_iff l w f).mp hf with hop | ⟨o, -, hops⟩
    · exact .inl (decodeOpcode_eq_error l w f hop)
    · obtain ⟨k, -, hbad, -⟩ := (decodeOperands_eq_error_iff w o f).mp hops
      exact .inr ⟨k, _, ((modeAt_eq_error_iff w k f).mp hbad).2.2⟩

end Sys2Proof

namespace Sys2Proof.Machine

/-- The step of a running machine at a word whose low two digits are no number of its level is the opcode fault. -/
theorem step_of_unrecognised {s : State} {w : Int} (hr : s.status = .running) (hw : s.Holds s.pc w)
    (h : w % 100 ∉ s.cfg.level.recognised.map Opcode.number) :
    ∃ t, step s = .next t ∧ s.FaultsTo t (.illegalOpcode w) := by
  have hd : decode s.cfg.level w = .error (.illegalOpcode w) :=
    (decode_eq_illegalOpcode_iff _ w).mpr (.inr fun o ho hn => h (List.mem_map.mpr ⟨o, ho, hn.symm⟩))
  exact ⟨_, step_of_decode_fault hr hw hd, s.raise_faultsTo _⟩

/-- Settles O5: the two lists of numbers are those of the level's opcodes. -/
theorem unrecognisedOpcodesFaultAtFetch : Obligations.UnrecognisedOpcodesFaultAtFetch := by
  intro s w hr hw _
  constructor
  · exact fun hl h => step_of_unrecognised hr hw (by rw [hl]; exact h)
  · exact fun hl h => step_of_unrecognised hr hw (by rw [hl]; exact h)

end Sys2Proof.Machine
end

section
/-!
The set of legal words (R70): the digits the Decoder reads, the digits an encoding has, and that a word is its low digits plus
a multiple of a power of ten (R68).
-/
namespace Sys2Proof

/-- The digit of operand `k` in an encoding with write-target digit `t`: `t`'s at the write target, else the canonical word's. -/
def Instr.digitWith (i : Instr) (t : Mode) (k : Nat) : Int :=
  if i.opcode.writeTarget = some k then t.digit else i.modeDigit k

/-- The mode digits of the word, as many as there are operands, are those of an encoding of `i` with write-target digit `t`. -/
def Instr.DigitsRead (i : Instr) (t : Mode) (w : Int) : Prop :=
  (0 < i.arity → dig w 2 = i.digitWith t 0) ∧
  (1 < i.arity → dig w 3 = i.digitWith t 1) ∧
  (2 < i.arity → dig w 4 = i.digitWith t 2)

/-! ### What the Decoder reads -/

@[simp] theorem Mode.resolved_digit (m : Mode) : m.resolved.digit = m.digit := by
  cases m <;> rfl

/-- A bound computation answers `b` exactly if its first part answers some `a` from which the rest answers `b`. -/
theorem except_bind_eq_ok_iff {α β : Type} (x : Except DecodeFault α) (f : α → Except DecodeFault β) (b : β) :
    (x >>= f) = .ok b ↔ ∃ a, x = .ok a ∧ f a = .ok b := by
  cases x <;> simp [bind, Except.bind]

/-- Once the opcode of `i` is known, the operands' digits decide whether the Decoder answers `i`. -/
theorem decodeOperands_eq_ok_iff (w : Int) (i : Instr) :
    decodeOperands w i.opcode = .ok i ↔ ∃ t, i.DigitsRead t w := by
  have hmode : Nonempty Mode := ⟨.position⟩
  cases i <;>
    simp [decodeOperands, except_bind_eq_ok_iff, pure, Except.pure, modeAt_eq_ok_iff, Instr.DigitsRead, Instr.digitWith,
      Instr.modeDigit, Instr.modes, Instr.arity, Instr.opcode, Opcode.arity, Opcode.writeTarget]

/-- The Decoder answers an instruction of the opcode it extracted. -/
theorem opcode_of_decodeOperands {w : Int} {o : Opcode} {i : Instr} (h : decodeOperands w o = .ok i) : i.opcode = o := by
  have hforms := decodeModesFrom_eq_decodeOperands w o
  rw [h] at hforms
  cases hm : decodeModesFrom w o 0 o.arity with
  | error d => rw [hm] at hforms; cases hforms
  | ok ms =>
    rw [hm] at hforms
    exact (congrArg Prod.fst (Except.ok.inj hforms)).symm

/-- The level has the opcode exactly if the instruction is well-formed at it (R69). -/
theorem opcode_mem_recognised_iff (l : IsaLevel) (i : Instr) : i.opcode ∈ l.recognised ↔ i.wf l = true := by
  cases l <;> cases i <;> simp [IsaLevel.recognised, Instr.opcode, Instr.wf]

/-- Everything the Decoder asks of a word that it decodes to `i`. -/
theorem decode_eq_ok_iff (l : IsaLevel) (w : Int) (i : Instr) :
    decode l w = .ok i ↔
      i.wf l = true ∧ ∃ t, 0 ≤ w ∧ w % 100 = i.opcode.number ∧ i.DigitsRead t w := by
  constructor
  · intro h
    cases hop : decodeOpcode l w with
    | error d => rw [decode, hop] at h; cases h
    | ok o =>
      rw [decode_eq_of_decodeOpcode hop] at h
      obtain rfl := opcode_of_decodeOperands h
      obtain ⟨hw, hn, hrec⟩ := (decodeOpcode_eq_ok_iff l w _).mp hop
      obtain ⟨t, ht⟩ := (decodeOperands_eq_ok_iff w i).mp h
      exact ⟨(opcode_mem_recognised_iff l i).mp hrec, t, hw, hn, ht⟩
  · rintro ⟨hwf, t, hw, hn, ht⟩
    have hop := (decodeOpcode_eq_ok_iff l w i.opcode).mpr ⟨hw, hn, (opcode_mem_recognised_iff l i).mpr hwf⟩
    rw [decode_eq_of_decodeOpcode hop]
    exact (decodeOperands_eq_ok_iff w i).mpr ⟨t, ht⟩

/-! ### What an encoding is -/

/-- An encoding, digit by digit: opcode, three mode digits (0 above the last operand), and what R68 ignores. -/
theorem encodeWith_eq (i : Instr) (t : Mode) (u : Nat) :
    encodeWith i t u =
      i.opcode.number + 100 * i.digitWith t 0 + 1000 * i.digitWith t 1 + 10000 * i.digitWith t 2 +
        (u : Int) * ((10 ^ (2 + i.arity) : Nat) : Int) := by
  cases i <;>
    simp [encodeWith, encode, Instr.digitWith, Instr.modeDigit, Instr.modes, Instr.opcode, Opcode.writeTarget, Instr.arity,
      Opcode.arity, OperandMode.digit] <;> ring

theorem OperandMode.digit_bounds (m : OperandMode) : 0 ≤ m.digit ∧ m.digit ≤ 1 := by
  cases m <;> decide

theorem Mode.digit_bounds (m : Mode) : 0 ≤ m.digit ∧ m.digit ≤ 1 :=
  m.resolved_digit ▸ m.resolved.digit_bounds

theorem Instr.modes_length (i : Instr) : i.modes.length = i.arity := by
  cases i <;> rfl

theorem Opcode.writeTarget_lt_arity {o : Opcode} {k : Nat} (h : o.writeTarget = some k) : k < o.arity := by
  cases o <;> cases h <;> decide

theorem Instr.modeDigit_bounds (i : Instr) (k : Nat) : 0 ≤ i.modeDigit k ∧ i.modeDigit k ≤ 1 := by
  unfold Instr.modeDigit
  split
  · exact OperandMode.digit_bounds _
  · decide

theorem Instr.modeDigit_of_arity_le {i : Instr} {k : Nat} (h : i.arity ≤ k) : i.modeDigit k = 0 := by
  rw [Instr.modeDigit, List.getElem?_eq_none (i.modes_length ▸ h)]

/-- A mode digit of an encoding is 0 or 1, and 0 above the last operand. -/
theorem Instr.digitWith_bounds (i : Instr) (t : Mode) (k : Nat) :
    0 ≤ i.digitWith t k ∧ i.digitWith t k ≤ 1 ∧ (i.arity ≤ k → i.digitWith t k = 0) := by
  unfold Instr.digitWith
  split
  · next htarget =>
    have hk : k < i.arity := Opcode.writeTarget_lt_arity htarget
    exact ⟨t.digit_bounds.1, t.digit_bounds.2, fun h => absurd hk (not_lt.mpr h)⟩
  · exact ⟨(i.modeDigit_bounds k).1, (i.modeDigit_bounds k).2, Instr.modeDigit_of_arity_le⟩

theorem Opcode.number_bounds (o : Opcode) : 0 ≤ o.number ∧ o.number < 100 := by
  cases o <;> decide

/-- A word whose low digits, the opcode's two and `n` more, are given is those digits plus a multiple of `10^(2+n)` (R68). -/
theorem low_digits_iff {w c d0 d1 d2 : Int} {n : Nat} (hn : n ≤ 3) (hc : 0 ≤ c ∧ c < 100)
    (h0 : 0 ≤ d0 ∧ d0 ≤ 1 ∧ (n ≤ 0 → d0 = 0)) (h1 : 0 ≤ d1 ∧ d1 ≤ 1 ∧ (n ≤ 1 → d1 = 0))
    (h2 : 0 ≤ d2 ∧ d2 ≤ 1 ∧ (n ≤ 2 → d2 = 0)) :
    (0 ≤ w ∧ w % 100 = c ∧ (0 < n → dig w 2 = d0) ∧ (1 < n → dig w 3 = d1) ∧ (2 < n → dig w 4 = d2)) ↔
      ∃ u : Nat, w = c + 100 * d0 + 1000 * d1 + 10000 * d2 + (u : Int) * ((10 ^ (2 + n) : Nat) : Int) := by
  rw [dig_two, dig_three, dig_four]
  constructor
  · intro h
    refine ⟨(w / (10 ^ (2 + n) : Nat)).toNat, ?_⟩
    interval_cases n <;> norm_num at * <;> omega
  · rintro ⟨u, rfl⟩
    interval_cases n <;> norm_num at * <;> omega

/-- Settles O1: the digits the Decoder asks for are those of the encodings, whose other digits are free. -/
theorem legalWordsAreExactlyTheEncodings : Obligations.LegalWordsAreExactlyTheEncodings := by
  intro l w i
  rw [decode_eq_ok_iff]
  refine and_congr_right fun _ => exists_congr fun t => ?_
  simp only [encodeWith_eq]
  exact low_digits_iff i.opcode.arity_le_three i.opcode.number_bounds (i.digitWith_bounds t 0) (i.digitWith_bounds t 1)
    (i.digitWith_bounds t 2)

/-! ### Canonical words -/

/-- The canonical word is the encoding with digit 0 at the write target and 0 in every digit above. -/
theorem encode_eq_encodeWith (i : Instr) : encode i = encodeWith i .position 0 := by
  unfold encodeWith
  split <;> simp [Mode.digit]

/-- Settles O2: the canonical word is one of the legal words. -/
theorem decodeOfEncodeIsTheInstruction : Obligations.DecodeOfEncodeIsTheInstruction := by
  intro l i hwf
  exact (legalWordsAreExactlyTheEncodings l (encode i) i).mpr ⟨hwf, .position, 0, encode_eq_encodeWith i⟩

/-- Settles O8: nine canonical words, an opcode of the other level, a bad write-target digit and a negative word. -/
theorem writtenOutWordsDecode : Obligations.WrittenOutWordsDecode := by
  have canonical := decodeOfEncodeIsTheInstruction
  exact ⟨canonical .minimal .hlt rfl, canonical .minimal (.add .immediate .immediate) rfl,
    canonical .minimal (.mul .immediate .position) rfl, canonical .minimal .inp rfl, canonical .minimal (.out .immediate) rfl,
    canonical .extended (.jnz .position .immediate) rfl, canonical .extended (.jz .immediate .position) rfl,
    canonical .extended (.lt .immediate .immediate) rfl, canonical .extended (.eq .position .position) rfl,
    (decode_eq_illegalOpcode_iff .minimal 8).mpr (.inr (by decide)),
    (decode_eq_illegalMode_iff .extended 20001 2 2).mpr ⟨.add, rfl, by decide, by decide, by decide, by decide,
      fun j hj => .inl (by interval_cases j <;> decide)⟩,
    (decode_eq_illegalOpcode_iff .extended (-99)).mpr (.inl (by decide))⟩

end Sys2Proof
end

section
/-!
What each instruction does when it completes (R110 to R150), from the completion lemma of its form.
-/
namespace Sys2Proof.Machine

variable {s : State} {m0 m1 : Mode}

/-- The three-operand form completes with one store and goes on four cells from its word. -/
theorem State.computeStore_stores {f : Int → Int → Except FaultCause Int} {a b dest r : Int}
    (h0 : s.OperandIs 0 m0.resolved a) (h1 : s.OperandIs 1 m1.resolved b) (h2 : s.OperandIs 2 .forcedAddress dest)
    (hr : f a b = .ok r) (hd : s.IsCell dest) :
    ∃ t, s.computeStore m0 m1 f = .next t ∧ s.Stores t dest r (s.pc + 4) := by
  refine ⟨_, State.computeStore_completes h0 h1 h2 hr hd, ?_⟩
  rw [add_assoc]
  exact s.stores_put dest r _ hd

/-- Settles O23: the exact sum passes the range check. -/
theorem addStoresTheSum : Obligations.AddStoresTheSum := by
  intro s m0 m1 a b dest h0 h1 h2 hcell hd
  exact State.computeStore_stores h0 h1 h2 ((s.checkedResult_eq_ok_iff 1 (a + b) _).mpr ⟨hcell, rfl⟩) hd

/-- Settles O24: the exact product passes the range check. -/
theorem mulStoresTheProduct : Obligations.MulStoresTheProduct := by
  intro s m0 m1 a b dest h0 h1 h2 hcell hd
  exact State.computeStore_stores h0 h1 h2 ((s.checkedResult_eq_ok_iff 2 (a * b) _).mpr ⟨hcell, rfl⟩) hd

/-- Settles O25: the input is there and the destination is a cell. -/
theorem inStoresTheInput : Obligations.InStoresTheInput := by
  intro s x dest h0 hx hd
  refine ⟨_, execIn_completes h0 hx hd, ?_⟩
  rw [add_assoc]
  exact s.stores_put dest x _ hd

/-- Settles O26: the output check is off, or the latch it looks at is empty. -/
theorem outEmitsItsOperand : Obligations.OutEmitsItsOperand := by
  intro s m0 v h0 hcheck
  have hpass : (s.cfg.strictSingleOutput && s.out.isSome) = false := by
    rcases hcheck with h | h <;> simp [h]
  have h := execOut_completes h0 hpass
  rwa [add_assoc] at h

/-- Settles O27: both operands resolve, and the test on the first decides which `pc` is next. -/
theorem jnzBranchesOnNonzero : Obligations.JnzBranchesOnNonzero := by
  intro s m0 m1 a target h0 h1
  have h : exec (.jnz m0 m1) s = _ := State.branch_completes (taken := fun a => decide (a ≠ 0)) h0 h1
  constructor
  · intro ha
    simpa [ha] using h
  · intro ha
    simpa [ha, add_assoc] using h

/-- Settles O28: both operands resolve, and the test on the first decides which `pc` is next. -/
theorem jzBranchesOnZero : Obligations.JzBranchesOnZero := by
  intro s m0 m1 a target h0 h1
  have h : exec (.jz m0 m1) s = _ := State.branch_completes (taken := fun a => decide (a = 0)) h0 h1
  constructor
  · intro ha
    simpa [ha] using h
  · intro ha
    simpa [ha, add_assoc] using h

/-- The number a comparison writes (R140, R141). -/
theorem boolCell_decide (p : Prop) [Decidable p] : boolCell (decide p) = if p then 1 else 0 := by
  simp [boolCell]

/-- Settles O29: the comparison's number is always there to be stored. -/
theorem ltStoresTheComparison : Obligations.LtStoresTheComparison := by
  intro s m0 m1 a b dest h0 h1 h2 hd
  exact State.computeStore_stores h0 h1 h2 (congrArg Except.ok (boolCell_decide (a < b))) hd

/-- Settles O30: the comparison's number is always there to be stored. -/
theorem eqStoresTheComparison : Obligations.EqStoresTheComparison := by
  intro s m0 m1 a b dest h0 h1 h2 hd
  exact State.computeStore_stores h0 h1 h2 (congrArg Except.ok (boolCell_decide (a = b))) hd

/-- Settles O31: it is the instruction's meaning, which makes no check. -/
theorem hltHaltsInPlace : Obligations.HltHaltsInPlace := fun _ => rfl

end Sys2Proof.Machine
end

section
/-!
The step around an executed instruction: terminal states (R90), the word at `pc` (R91), the store that changed it (R52), and
the next `pc` (R97).
-/
namespace Sys2Proof.Machine

variable {s t : State}

/-- Settles O19: neither terminal status is `Running`. -/
theorem terminalStatesStepToThemselves : Obligations.TerminalStatesStepToThemselves := by
  intro s h
  refine step_of_not_running ?_
  rcases h with h | h <;> simp [h]

/-- Settles O17, by the rule for a word that decodes. -/
theorem stepRunsTheDecodedInstruction : Obligations.StepRunsTheDecodedInstruction :=
  fun _ _ _ hr hw hd => step_of_decode hr hw hd

/-- After a checked write the cell holds what was written. -/
theorem State.holds_of_memWrite {a v : Int} (h : s.memWrite a v = .ok t) : t.Holds a v := by
  obtain ⟨ha, rfl⟩ := (s.memWrite_eq_ok_iff t a v).mp h
  exact ⟨ha, (s.stores_put a v s.pc ha).stored⟩

/-- A checked write leaves everything but memory. -/
theorem State.memWrite_frame {a v : Int} (h : s.memWrite a v = .ok t) : t.status = s.status ∧ t.cfg = s.cfg := by
  obtain ⟨-, rfl⟩ := (s.memWrite_eq_ok_iff t a v).mp h
  exact ⟨rfl, rfl⟩

/-- Settles O16: the fetch at the cell that was written reads the value written, and that decodes. -/
theorem storeIsSeenByTheNextFetch : Obligations.StoreIsSeenByTheNextFetch := by
  intro s t a v i hr hw hd
  obtain ⟨hstatus, hcfg⟩ := State.memWrite_frame hw
  have hold : State.Holds { t with pc := a } a v := State.holds_of_memWrite (t := t) hw
  exact step_of_decode (hstatus.trans hr) hold (hcfg ▸ hd)

/-- An executed instruction that leaves the status at `Running` did not raise, and did not halt. -/
theorem exec_running_cases {i : Instr} (h : exec i s = .next t) (ht : t.status = .running) :
    (i.opcode ≠ .jnz ∧ i.opcode ≠ .jz ∧ t.pc = s.pc + i.width) ∨
    ∃ m0 m1 a target, (i = .jnz m0 m1 ∨ i = .jz m0 m1) ∧ s.OperandIs 0 m0.resolved a ∧
      s.OperandIs 1 m1.resolved target ∧
      t.pc = if i = .jnz m0 m1 ∧ a ≠ 0 ∨ i = .jz m0 m1 ∧ a = 0 then target else s.pc + 3 := by
  rcases exec_cases h with ⟨c, rfl, -⟩ | ⟨-, rfl⟩ | ⟨k, dest, r, hk, -, -, rfl, -⟩ |
    ⟨m0, v, rfl, -, -, rfl⟩ | ⟨m0, m1, a, target, hi, h0, h1, rfl⟩
  · cases ht
  · cases ht
  · refine .inl ⟨?_, ?_, rfl⟩ <;> (intro hop; rw [hop] at hk; cases hk)
  · exact .inl ⟨nofun, nofun, rfl⟩
  · exact .inr ⟨m0, m1, a, target, hi, h0, h1, rfl⟩

/-- An executed instruction that ends a run leaves `pc`: it raised, or it is `HLT` (R99, R150). -/
theorem exec_pc_of_not_running {i : Instr} (h : exec i s = .next t) (hr : s.status = .running)
    (ht : t.status ≠ .running) : t.pc = s.pc := by
  rcases exec_cases h with ⟨c, rfl, -⟩ | ⟨-, rfl⟩ | ⟨_, _, _, -, -, -, rfl, -⟩ | ⟨_, _, -, -, -, rfl⟩ |
    ⟨_, _, _, _, -, -, -, rfl⟩
  · rfl
  · rfl
  all_goals exact absurd hr ht

/-- Settles O22: what ended the run left `pc`; what goes on advanced by its width, or is a jump with its two outcomes. -/
theorem pointerAdvance : Obligations.PointerAdvance := by
  intro i s t h hr
  refine ⟨exec_pc_of_not_running h hr, fun ht hjnz hjz => ?_, fun ht m0 m1 hi => ?_, fun ht m0 m1 hi => ?_⟩
  · rcases exec_running_cases h ht with ⟨-, -, hpc⟩ | ⟨m0, m1, -, -, rfl | rfl, -⟩
    · exact hpc
    · exact absurd rfl hjnz
    · exact absurd rfl hjz
  · subst hi
    rcases exec_running_cases h ht with ⟨hjnz, -⟩ | ⟨n0, n1, a, target, hi, h0, h1, hpc⟩
    · exact absurd rfl hjnz
    · obtain ⟨rfl, rfl⟩ : m0 = n0 ∧ m1 = n1 := by simpa using hi
      exact ⟨a, target, h0, h1, by simpa using hpc⟩
  · subst hi
    rcases exec_running_cases h ht with ⟨-, hjz, -⟩ | ⟨n0, n1, a, target, hi, h0, h1, hpc⟩
    · exact absurd rfl hjz
    · obtain ⟨rfl, rfl⟩ : m0 = n0 ∧ m1 = n1 := by simpa using hi
      exact ⟨a, target, h0, h1, by simpa using hpc⟩

end Sys2Proof.Machine
end

section
/-!
Faults of an executed instruction: which one is taken first (R98), and which ones an opcode can raise (R161).
-/
namespace Sys2Proof.Machine

variable {s t : State} {m0 m1 : Mode} {c : FaultCause}

/-! ### The first operand fault -/

/-- With one operand the first fault is its own. -/
theorem State.FirstOperandFault.one {m : OperandMode} (h : s.FirstOperandFault [m] c) : s.OperandFaults 0 m c := by
  obtain ⟨k, m', hk, hf, -⟩ := h
  match k with
  | 0 =>
    obtain rfl : m = m' := by simpa using hk
    exact hf
  | _ + 1 => simp at hk

/-- With two operands the first fault is operand 0's, or operand 1's after operand 0 resolved. -/
theorem State.FirstOperandFault.two {n0 n1 : OperandMode} (h : s.FirstOperandFault [n0, n1] c) :
    s.OperandFaults 0 n0 c ∨ ∃ a, s.OperandIs 0 n0 a ∧ s.OperandFaults 1 n1 c := by
  obtain ⟨k, m, hk, hf, hlow⟩ := h
  match k with
  | 0 =>
    obtain rfl : n0 = m := by simpa using hk
    exact .inl hf
  | 1 =>
    obtain rfl : n1 = m := by simpa using hk
    obtain ⟨a, h0⟩ := hlow 0 n0 (by decide) rfl
    exact .inr ⟨a, h0, hf⟩
  | _ + 2 => simp at hk

/-- With three operands the first fault is one of the first two's, or operand 2's after both resolved. -/
theorem State.FirstOperandFault.three {n0 n1 n2 : OperandMode} (h : s.FirstOperandFault [n0, n1, n2] c) :
    s.OperandFaults 0 n0 c ∨ (∃ a, s.OperandIs 0 n0 a ∧ s.OperandFaults 1 n1 c) ∨
      ∃ a b, s.OperandIs 0 n0 a ∧ s.OperandIs 1 n1 b ∧ s.OperandFaults 2 n2 c := by
  obtain ⟨k, m, hk, hf, hlow⟩ := h
  match k with
  | 0 =>
    obtain rfl : n0 = m := by simpa using hk
    exact .inl hf
  | 1 =>
    obtain rfl : n1 = m := by simpa using hk
    obtain ⟨a, h0⟩ := hlow 0 n0 (by decide) rfl
    exact .inr (.inl ⟨a, h0, hf⟩)
  | 2 =>
    obtain rfl : n2 = m := by simpa using hk
    obtain ⟨a, h0⟩ := hlow 0 n0 (by decide) rfl
    obtain ⟨b, h1⟩ := hlow 1 n1 (by decide) rfl
    exact .inr (.inr ⟨a, b, h0, h1, hf⟩)
  | _ + 3 => simp at hk

/-- The three-operand form takes the first operand fault, whatever its operation is. -/
theorem State.computeStore_first_fault (f : Int → Int → Except FaultCause Int)
    (h : s.FirstOperandFault [m0.resolved, m1.resolved, .forcedAddress] c) :
    s.computeStore m0 m1 f = .next (s.raise c) := by
  rcases h.three with hf | ⟨a, h0, hf⟩ | ⟨a, b, h0, h1, hf⟩
  · exact State.computeStore_fault0 hf
  · exact State.computeStore_fault1 h0 hf
  · exact State.computeStore_fault2 h0 h1 hf

/-- A jump takes operand 0's fault. -/
theorem State.branch_fault0 {taken : Int → Bool} (h : s.OperandFaults 0 m0.resolved c) :
    s.branch m0 m1 taken = .next (s.raise c) := by
  rw [← State.valueOperand_eq_error_iff] at h
  simp [State.branch, h, bind, Except.bind]

/-- A jump takes its target's fault, whether it would be taken or not (R100). -/
theorem State.branch_fault1 {taken : Int → Bool} {a : Int} (h0 : s.OperandIs 0 m0.resolved a)
    (h : s.OperandFaults 1 m1.resolved c) : s.branch m0 m1 taken = .next (s.raise c) := by
  rw [← State.valueOperand_eq_ok_iff] at h0
  rw [← State.valueOperand_eq_error_iff] at h
  simp [State.branch, h0, h, bind, Except.bind]

/-- A jump takes the first operand fault, whatever its condition is. -/
theorem State.branch_first_fault (taken : Int → Bool) (h : s.FirstOperandFault [m0.resolved, m1.resolved] c) :
    s.branch m0 m1 taken = .next (s.raise c) := by
  rcases h.two with hf | ⟨a, h0, hf⟩
  · exact State.branch_fault0 hf
  · exact State.branch_fault1 h0 hf

/-- `IN` takes its target operand's fault before it looks for an input. -/
theorem execIn_operand_fault (h : s.OperandFaults 0 .forcedAddress c) : execIn s = .next (s.raise c) := by
  rw [← State.targetOperand_eq_error_iff] at h
  simp [execIn, h, bind, Except.bind]

/-- `OUT` takes its operand's fault before the output check. -/
theorem execOut_operand_fault (h : s.OperandFaults 0 m0.resolved c) : execOut m0 s = .next (s.raise c) := by
  rw [← State.valueOperand_eq_error_iff] at h
  simp [execOut, h, bind, Except.bind]

/-- Settles O32: each form takes the first operand fault, and `HLT` has no operand. -/
theorem operandFaultsAreTakenInOrder : Obligations.OperandFaultsAreTakenInOrder := by
  intro i s c h
  refine ⟨s.raise c, ?_, s.raise_faultsTo c⟩
  cases i with
  | hlt =>
    obtain ⟨k, m, hk, -⟩ := h
    simp [Instr.modes] at hk
  | add m0 m1 | mul m0 m1 | lt m0 m1 | eq m0 m1 => exact State.computeStore_first_fault _ h
  | jnz m0 m1 | jz m0 m1 => exact State.branch_first_fault _ h
  | inp => exact execIn_operand_fault h.one
  | out m0 => exact execOut_operand_fault h.one

/-! ### The faults after the operands -/

/-- Settles O33: the range check of the result comes before the write's check of the destination. -/
theorem overflowIsAFault : Obligations.OverflowIsAFault := by
  intro s m0 m1 a b dest h0 h1 h2
  constructor
  · intro hout
    have hr := (s.checkedResult_eq_error_iff 1 (a + b) (.overflow 1)).mpr ⟨hout, rfl⟩
    exact ⟨_, State.computeStore_fault_operation h0 h1 h2 hr, s.raise_faultsTo _⟩
  · intro hout
    have hr := (s.checkedResult_eq_error_iff 2 (a * b) (.overflow 2)).mpr ⟨hout, rfl⟩
    exact ⟨_, State.computeStore_fault_operation h0 h1 h2 hr, s.raise_faultsTo _⟩

/-- `IN` with an input takes the write's fault. -/
theorem execIn_write_fault {dest x : Int} (h0 : s.OperandIs 0 .forcedAddress dest) (hx : s.inp = some x)
    (hd : ¬ s.IsCell dest) : execIn s = .next (s.raise (.writeRange dest)) := by
  have hw := (s.memWrite_eq_error_iff dest x _).mpr ⟨hd, rfl⟩
  rw [← State.targetOperand_eq_ok_iff] at h0
  simp [execIn, h0, State.readInput, hx, hw, bind, Except.bind]

/-- Settles O35: the write is each instruction's last check, and here all the others pass. -/
theorem writeTargetOutsideMemoryIsAFault : Obligations.WriteTargetOutsideMemoryIsAFault := by
  intro s dest hd
  refine ⟨fun x h0 hx => ⟨_, execIn_write_fault h0 hx hd, s.raise_faultsTo _⟩, fun m0 m1 a b h0 h1 h2 => ?_⟩
  have write_fault : ∀ (f : Int → Int → Except FaultCause Int) (r : Int), f a b = .ok r →
      ∃ t, s.computeStore m0 m1 f = .next t ∧ s.FaultsTo t (.writeRange dest) :=
    fun f r hr => ⟨_, State.computeStore_fault_write h0 h1 h2 hr hd, s.raise_faultsTo _⟩
  exact
    ⟨fun hcell => write_fault _ _ ((s.checkedResult_eq_ok_iff 1 (a + b) _).mpr ⟨hcell, rfl⟩),
     fun hcell => write_fault _ _ ((s.checkedResult_eq_ok_iff 2 (a * b) _).mpr ⟨hcell, rfl⟩),
     write_fault _ _ rfl, write_fault _ _ rfl⟩

/-- `IN` whose target operand resolves takes the input check's fault. -/
theorem execIn_input_fault {dest : Int} (h0 : s.OperandIs 0 .forcedAddress dest) (hx : s.inp = none) :
    execIn s = .next (s.raise .noInput) := by
  rw [← State.targetOperand_eq_ok_iff] at h0
  simp [execIn, h0, State.readInput, hx, bind, Except.bind]

/-- Settles O36: the target operand resolves, and the check for an input comes next. -/
theorem inWithoutInputIsAFault : Obligations.InWithoutInputIsAFault := by
  intro s dest h0 hx
  exact ⟨_, execIn_input_fault h0 hx, s.raise_faultsTo _⟩

/-- `OUT` whose operand resolves takes the output check's fault. -/
theorem execOut_check_fault {v : Int} (h0 : s.OperandIs 0 m0.resolved v) (hstrict : s.cfg.strictSingleOutput = true)
    (hout : s.out.isSome = true) : execOut m0 s = .next (s.raise (.secondOutput v)) := by
  rw [← State.valueOperand_eq_ok_iff] at h0
  simp [execOut, h0, State.emit, hstrict, hout, bind, Except.bind]

/-- Settles O37: the operand resolves, and the output check refuses its value. -/
theorem secondOutputIsAFaultWhenStrict : Obligations.SecondOutputIsAFaultWhenStrict := by
  intro s m0 v first h0 hstrict hout
  exact ⟨_, execOut_check_fault h0 hstrict (by simp [hout]), s.raise_faultsTo _⟩

/-! ### Which causes can be raised -/

/-- An executed instruction that makes the machine `Faulted` is fault entry with a cause of its opcode. -/
theorem exec_faulted {i : Instr} (h : exec i s = .next t) (hs : s.status ≠ .faulted) (ht : t.status = .faulted) :
    ∃ c, t = s.raise c ∧ c.code ∈ executionCauses i.opcode := by
  rcases exec_cases h with hraise | ⟨-, rfl⟩ | ⟨_, _, _, -, -, -, rfl, -⟩ | ⟨_, _, -, -, -, rfl⟩ |
    ⟨_, _, _, _, -, -, -, rfl⟩
  · exact hraise
  · cases ht
  all_goals exact absurd ht hs

/-- Settles O38, from everything an executed instruction can do. -/
theorem eachOpcodeRaisesOnlyItsCauses : Obligations.EachOpcodeRaisesOnlyItsCauses := by
  intro i s t h hs ht
  obtain ⟨c, rfl, hc⟩ := exec_faulted h hs ht
  exact ⟨c, s.raise_faultsTo c, hc⟩

/-- Overflow alone has code 9 (R161). -/
theorem FaultCause.code_of_overflow (h : c.faultClass = .arithmeticOverflow) : c.code = 9 := by
  cases c with
  | overflow o => rfl
  | _ => cases h

/-- At unbounded width the range check of a result passes. -/
theorem State.checkedResult_ne_error (hu : s.cfg.width = .unbounded) (o r : Int) : s.checkedResult o r ≠ .error c := by
  intro h
  have hout := ((s.checkedResult_eq_error_iff o r c).mp h).1
  rw [hu] at hout
  cases hout

/-- At unbounded width the three-operand form, with an operation that never faults, raises only what a comparison does. -/
theorem State.computeStore_faulted_of_total {f : Int → Int → Except FaultCause Int} (hu : s.cfg.width = .unbounded)
    (hf : ∀ a b c, f a b ≠ .error c) (h : s.computeStore m0 m1 f = .next t) (hs : s.status ≠ .faulted)
    (ht : t.status = .faulted) : ∃ c, t = s.raise c ∧ c.code ∈ executionCauses .lt := by
  rcases State.computeStore_effect (i := .lt m0 m1) rfl rfl (List.Subset.refl _) (fun a b c hc => absurd hc (hf a b c))
    (fun _ _ _ r _ => by rw [hu, inCell_unbounded]) h with hraise | ⟨_, _, _, -, -, -, rfl, -⟩
  · exact hraise
  · exact absurd ht hs

/-- At unbounded width an executed instruction raises no overflow: `ADD` and `MUL` pass their range check, and no other opcode
has the cause. -/
theorem exec_faulted_of_unbounded {i : Instr} (hu : s.cfg.width = .unbounded) (h : exec i s = .next t)
    (hs : s.status ≠ .faulted) (ht : t.status = .faulted) : ∃ c, t = s.raise c ∧ c.code ≠ 9 := by
  have not_nine : ∀ o, 9 ∉ executionCauses o → (∃ c, t = s.raise c ∧ c.code ∈ executionCauses o) →
      ∃ c, t = s.raise c ∧ c.code ≠ 9 := by
    rintro o ho ⟨c, hc, hmem⟩
    exact ⟨c, hc, fun h9 => ho (h9 ▸ hmem)⟩
  cases i with
  | add m0 m1 | mul m0 m1 =>
    exact not_nine .lt (by decide)
      (State.computeStore_faulted_of_total hu (fun _ _ _ => State.checkedResult_ne_error hu _ _) h hs ht)
  | hlt | inp | out m0 | jnz m0 m1 | jz m0 m1 | lt m0 m1 | eq m0 m1 =>
    exact not_nine _ (by simp [executionCauses, Instr.opcode]) (exec_faulted h hs ht)

/-- A step of a running machine that ends `Faulted` at unbounded width raised another cause than overflow. -/
theorem step_faulted_of_unbounded (hu : s.cfg.width = .unbounded) (hr : s.status = .running) (h : step s = .next t)
    (ht : t.status = .faulted) : ∃ c, t = s.raise c ∧ c.code ≠ 9 := by
  rcases step_cases h with ⟨hn, -⟩ | ⟨-, -, rfl⟩ | ⟨w, d, -, -, -, rfl⟩ | ⟨w, i, -, -, -, he⟩
  · exact absurd hr hn
  · exact ⟨_, rfl, nofun⟩
  · exact ⟨_, rfl, by cases d <;> nofun⟩
  · exact exec_faulted_of_unbounded hu he (by simp [hr]) ht

/-- Settles O34: the recorded cause is the raised one, and overflow's code is 9. -/
theorem unboundedCellsNeverOverflow : Obligations.UnboundedCellsNeverOverflow := by
  intro s t hu hr h ht r hfault hclass
  obtain ⟨c, rfl, hc⟩ := step_faulted_of_unbounded hu hr h ht
  obtain rfl : { cause := c, fpc := s.pc } = r := by simpa using hfault
  exact hc (FaultCause.code_of_overflow hclass)

end Sys2Proof.Machine
end

section
/-!
Who reads and writes what (R36): the frame of every instruction, and that an executed instruction is one EFFECT on the state,
chosen without a look at the input (but by `IN`), the latch (but by `OUT`), the log or the defect record.
-/
namespace Sys2Proof.Machine

variable {s t : State} {m0 m1 : Mode}

/-! ### The frame -/

/-- Settles O39, from everything an executed instruction can do. -/
theorem frameOfEveryInstruction : Obligations.FrameOfEveryInstruction := by
  intro i s t h
  rcases exec_cases h with ⟨c, rfl, -⟩ | ⟨rfl, rfl⟩ | ⟨k, dest, r, hk, hdest, hd, rfl, -⟩ |
    ⟨m0, v, rfl, -, -, rfl⟩ | ⟨m0, m1, a, target, -, -, -, rfl⟩
  · exact ⟨rfl, rfl, rfl, fun _ _ _ _ _ => rfl, fun _ _ _ => rfl, fun _ => ⟨rfl, rfl⟩, .inr (.inl rfl), .inr rfl⟩
  · exact ⟨rfl, rfl, rfl, fun _ _ _ _ _ => rfl, fun _ _ _ => rfl, fun _ => ⟨rfl, rfl⟩, .inr (.inr ⟨rfl, rfl⟩), .inl rfl⟩
  · refine ⟨rfl, rfl, rfl, fun j hj a ha hne => ?_, fun hnone => ?_, fun _ => ⟨rfl, rfl⟩, .inl rfl, .inl rfl⟩
    · obtain rfl : k = j := Option.some.inj (hk.symm.trans hj)
      rw [hdest.2] at hne
      exact (s.stores_put dest r _ hd).others a ha hne
    · exact nomatch hk.symm.trans hnone
  · exact ⟨rfl, rfl, rfl, fun _ hk => (nomatch hk), fun _ _ _ => rfl, fun hne => absurd rfl hne, .inl rfl, .inl rfl⟩
  · exact ⟨rfl, rfl, rfl, fun _ _ _ _ _ => rfl, fun _ _ _ => rfl, fun _ => ⟨rfl, rfl⟩, .inl rfl, .inl rfl⟩

/-- Settles O43: of the things an executed instruction can do, `OUT`'s emission alone touches log and latch. -/
theorem outputLogOnlyGrows : Obligations.OutputLogOnlyGrows := by
  intro s t h
  rcases step_cases h with ⟨-, rfl⟩ | ⟨-, -, rfl⟩ | ⟨w, d, -, -, -, rfl⟩ | ⟨w, i, -, hw, hd, he⟩
  · exact .inl ⟨rfl, rfl⟩
  · exact .inl ⟨rfl, rfl⟩
  · exact .inl ⟨rfl, rfl⟩
  · rcases exec_cases he with ⟨c, rfl, -⟩ | ⟨-, rfl⟩ | ⟨_, _, _, -, -, -, rfl, -⟩ | ⟨m0, v, rfl, hv, -, rfl⟩ |
      ⟨_, _, _, _, -, -, -, rfl⟩
    · exact .inl ⟨rfl, rfl⟩
    · exact .inl ⟨rfl, rfl⟩
    · exact .inl ⟨rfl, rfl⟩
    · exact .inr ⟨w, m0, v, hw, hd, hv, rfl, rfl⟩
    · exact .inl ⟨rfl, rfl⟩

/-! ### Effects -/

/-- What one executed instruction does to the state it is applied to. -/
inductive Effect where
  /-- Fault entry with this cause. -/
  | raise (c : FaultCause)
  /-- The status becomes `Halted`. -/
  | halt
  /-- Cell `dest` becomes `r`; `pc` goes `1 + n` on. -/
  | store (dest r : Int) (n : Nat)
  /-- `v` is emitted; `pc` goes two on. -/
  | emit (v : Int)
  /-- `pc` becomes this. -/
  | goto (p : Int)

/-- The state after an effect. -/
def Effect.apply (s : State) : Effect → State
  | .raise c => s.raise c
  | .halt => { s with status := .halted }
  | .store dest r n => { s with mem := Memory.put s.mem dest.toNat r, pc := s.pc + 1 + n }
  | .emit v => { s with out := some v, outLog := s.outLog ++ [v], pc := s.pc + 1 + 1 }
  | .goto p => { s with pc := p }

/-- `s` with another input, latch, log and defect record: what no access to memory looks at. -/
def State.withAside (s : State) (x o : Option Int) (l : List Cell) (d : Option FaultRecord) : State :=
  { s with inp := x, out := o, outLog := l, fault := d }

/-- The three-operand form has one effect, no emission, whatever those four pieces of state hold. -/
theorem State.computeStore_has_effect (f : Int → Int → Except FaultCause Int) :
    ∃ e : Effect, (∀ v, e ≠ .emit v) ∧
      ∀ x o l d, (s.withAside x o l d).computeStore m0 m1 f = .next (e.apply (s.withAside x o l d)) := by
  obtain ⟨t, ht⟩ : ∃ t, s.computeStore m0 m1 f = .next t := s.exists_settle_eq_next _
  rcases State.computeStore_cases ht with ⟨a, b, dest, r, h0, h1, h2, hr, hd, -⟩ | ⟨c, -, hc⟩
  · exact ⟨.store dest r 3, nofun, fun x o l d =>
      State.computeStore_completes (s := s.withAside x o l d) h0 h1 h2 hr hd⟩
  · refine ⟨.raise c, nofun, fun x o l d => ?_⟩
    rcases hc with hf | ⟨a, h0, hf⟩ | ⟨a, b, h0, h1, hf⟩ | ⟨a, b, dest, h0, h1, h2, hf | ⟨r, hr, hd, rfl⟩⟩
    · exact State.computeStore_fault0 (s := s.withAside x o l d) hf
    · exact State.computeStore_fault1 (s := s.withAside x o l d) h0 hf
    · exact State.computeStore_fault2 (s := s.withAside x o l d) h0 h1 hf
    · exact State.computeStore_fault_operation (s := s.withAside x o l d) h0 h1 h2 hf
    · exact State.computeStore_fault_write (s := s.withAside x o l d) h0 h1 h2 hr hd

/-- The jump form has one effect, no emission, whatever those four pieces of state hold. -/
theorem State.branch_has_effect (taken : Int → Bool) :
    ∃ e : Effect, (∀ v, e ≠ .emit v) ∧
      ∀ x o l d, (s.withAside x o l d).branch m0 m1 taken = .next (e.apply (s.withAside x o l d)) := by
  obtain ⟨t, ht⟩ : ∃ t, s.branch m0 m1 taken = .next t := s.exists_settle_eq_next _
  rcases State.branch_cases ht with ⟨a, target, h0, h1, -⟩ | ⟨c, -, hc⟩
  · exact ⟨.goto (if taken a then target else s.pc + 1 + 2), nofun, fun x o l d =>
      State.branch_completes (s := s.withAside x o l d) h0 h1⟩
  · refine ⟨.raise c, nofun, fun x o l d => ?_⟩
    rcases hc with hf | ⟨a, h0, hf⟩
    · exact State.branch_fault0 (s := s.withAside x o l d) hf
    · exact State.branch_fault1 (s := s.withAside x o l d) h0 hf

/-- `IN` has one effect, no emission, for its input, whatever the other three hold. -/
theorem execIn_has_effect (s : State) :
    ∃ e : Effect, (∀ v, e ≠ .emit v) ∧
      ∀ o l d, execIn (s.withAside s.inp o l d) = .next (e.apply (s.withAside s.inp o l d)) := by
  obtain ⟨t, ht⟩ : ∃ t, execIn s = .next t := s.exists_settle_eq_next _
  rcases execIn_cases ht with ⟨dest, x, h0, hx, hd, -⟩ | ⟨c, -, hc⟩
  · exact ⟨.store dest x 1, nofun, fun o l d => execIn_completes (s := s.withAside s.inp o l d) h0 hx hd⟩
  · refine ⟨.raise c, nofun, fun o l d => ?_⟩
    rcases hc with hf | ⟨dest, h0, ⟨hx, rfl⟩ | ⟨x, hx, hd, rfl⟩⟩
    · exact execIn_operand_fault (s := s.withAside s.inp o l d) hf
    · exact execIn_input_fault (s := s.withAside s.inp o l d) h0 hx
    · exact execIn_write_fault (s := s.withAside s.inp o l d) h0 hx hd

/-- `OUT` has one effect for its latch, whatever the other three hold. -/
theorem execOut_has_effect (s : State) (m0 : Mode) :
    ∃ e : Effect, ∀ x l d, execOut m0 (s.withAside x s.out l d) = .next (e.apply (s.withAside x s.out l d)) := by
  obtain ⟨t, ht⟩ : ∃ t, execOut m0 s = .next t := s.exists_settle_eq_next _
  rcases execOut_cases ht with ⟨v, h0, hcheck, -⟩ | ⟨c, -, hc⟩
  · have hpass : (s.cfg.strictSingleOutput && s.out.isSome) = false := by simpa using hcheck
    exact ⟨.emit v, fun x l d => execOut_completes (s := s.withAside x s.out l d) h0 hpass⟩
  · refine ⟨.raise c, fun x l d => ?_⟩
    rcases hc with hf | ⟨v, h0, hstrict, hout, rfl⟩
    · exact execOut_operand_fault (s := s.withAside x s.out l d) hf
    · exact execOut_check_fault (s := s.withAside x s.out l d) h0 hstrict hout

/-- An executed instruction has one effect, an emission only if it is `OUT`, whatever the log, the defect record and, but for
`IN` the input and but for `OUT` the latch hold. -/
theorem exec_has_effect (i : Instr) (s : State) :
    ∃ e : Effect, (∀ v, e = .emit v → i.opcode = .out) ∧
      ∀ x o l d, (i.opcode = .inp → x = s.inp) → (i.opcode = .out → o = s.out) →
        exec i (s.withAside x o l d) = .next (e.apply (s.withAside x o l d)) := by
  cases i with
  | hlt => exact ⟨.halt, nofun, fun _ _ _ _ _ _ => rfl⟩
  | add m0 m1 =>
    obtain ⟨e, hsilent, he⟩ := s.computeStore_has_effect (m0 := m0) (m1 := m1) fun a b => s.checkedResult 1 (a + b)
    exact ⟨e, fun v hv => absurd hv (hsilent v), fun x o l d _ _ => he x o l d⟩
  | mul m0 m1 =>
    obtain ⟨e, hsilent, he⟩ := s.computeStore_has_effect (m0 := m0) (m1 := m1) fun a b => s.checkedResult 2 (a * b)
    exact ⟨e, fun v hv => absurd hv (hsilent v), fun x o l d _ _ => he x o l d⟩
  | lt m0 m1 | eq m0 m1 =>
    obtain ⟨e, hsilent, he⟩ := s.computeStore_has_effect (m0 := m0) (m1 := m1) _
    exact ⟨e, fun v hv => absurd hv (hsilent v), fun x o l d _ _ => he x o l d⟩
  | jnz m0 m1 | jz m0 m1 =>
    obtain ⟨e, hsilent, he⟩ := s.branch_has_effect (m0 := m0) (m1 := m1) _
    exact ⟨e, fun v hv => absurd hv (hsilent v), fun x o l d _ _ => he x o l d⟩
  | inp =>
    obtain ⟨e, hsilent, he⟩ := execIn_has_effect s
    exact ⟨e, fun v hv => absurd hv (hsilent v), fun x o l d hx _ => hx rfl ▸ he o l d⟩
  | out m0 =>
    obtain ⟨e, he⟩ := execOut_has_effect s m0
    exact ⟨e, fun _ _ => rfl, fun x o l d _ ho => ho rfl ▸ he x l d⟩

/-- The answer of an executed instruction is its effect on the state. -/
theorem effect_of_exec {i : Instr} (h : exec i s = .next t) :
    ∃ e : Effect, t = e.apply s ∧ (∀ v, e = .emit v → i.opcode = .out) ∧
      ∀ x o l d, (i.opcode = .inp → x = s.inp) → (i.opcode = .out → o = s.out) →
        exec i (s.withAside x o l d) = .next (e.apply (s.withAside x o l d)) := by
  obtain ⟨e, hemit, he⟩ := exec_has_effect i s
  have hs : exec i s = .next (e.apply s) := he s.inp s.out s.outLog s.fault (fun _ => rfl) (fun _ => rfl)
  exact ⟨e, Host.Outcome.next.inj (h.symm.trans hs), hemit, he⟩

/-! ### What is not read -/

/-- Any instruction but `OUT` does the same whatever the latch holds, and leaves it. -/
theorem exec_withLatch {i : Instr} (hi : i.opcode ≠ .out) (h : exec i s = .next t) (x : Option Int) :
    t.out = s.out ∧ exec i { s with out := x } = .next { t with out := x } := by
  obtain ⟨e, rfl, hemit, he⟩ := effect_of_exec h
  have hx := he s.inp x s.outLog s.fault (fun _ => rfl) (fun hout => absurd hout hi)
  cases e with
  | emit v => exact absurd (hemit v rfl) hi
  | raise c | halt | store dest r n | goto p => exact ⟨rfl, hx⟩

/-- Any instruction but `IN` does the same under every input. -/
theorem exec_withInput {i : Instr} (hi : i.opcode ≠ .inp) (h : exec i s = .next t) (x : Option Int) :
    exec i { s with inp := x } = .next { t with inp := x } := by
  obtain ⟨e, rfl, -, he⟩ := effect_of_exec h
  have hx := he x s.out s.outLog s.fault (fun hin => absurd hin hi) (fun _ => rfl)
  cases e <;> exact hx

/-- Every instruction does the same, but for log and defect record, whatever these two hold. -/
theorem exec_withLogAndDefect {i : Instr} (h : exec i s = .next t) (log : List Int) (f : Option FaultRecord) :
    ∃ t', exec i { s with outLog := log, fault := f } = .next t' ∧ t = { t' with outLog := t.outLog, fault := t.fault } := by
  obtain ⟨e, rfl, -, he⟩ := effect_of_exec h
  refine ⟨_, he s.inp s.out log f (fun _ => rfl) (fun _ => rfl), ?_⟩
  cases e <;> rfl

/-- Settles O41: the word at `pc` is fetched and decoded without the input, and its instruction does not read it. -/
theorem inputIsReadOnlyByIn : Obligations.InputIsReadOnlyByIn := by
  intro s t w i x hr hw hd hi h
  rw [step_of_decode hr hw hd] at h
  have hw' : State.Holds { s with inp := x } s.pc w := hw
  rw [step_of_decode (s := { s with inp := x }) hr hw' hd]
  exact exec_withInput hi h x

/-- Settles O42: fetch and Decoder look at neither, and no instruction does. -/
theorem logAndDefectAreNeverRead : Obligations.LogAndDefectAreNeverRead := by
  intro s t log f hr h
  rcases step_cases h with ⟨hn, -⟩ | ⟨-, hpc, rfl⟩ | ⟨w, d, -, hw, hd, rfl⟩ | ⟨w, i, -, hw, hd, he⟩
  · exact absurd hr hn
  · exact ⟨_, step_of_fetch_fault (s := { s with outLog := log, fault := f }) hr hpc, rfl⟩
  · exact ⟨_, step_of_decode_fault (s := { s with outLog := log, fault := f }) hr hw hd, rfl⟩
  · rw [step_of_decode (s := { s with outLog := log, fault := f }) hr hw hd]
    exact exec_withLogAndDefect he log f

/-- An executed `OUT` is fault entry, or leaves in the latch the value its operand resolved to. -/
theorem execOut_latch (h : exec (.out m0) s = .next t) :
    (∃ c, s.FaultsTo t c) ∨ ∃ v, s.OperandIs 0 m0.resolved v ∧ t.out = some v := by
  rcases execOut_cases h with ⟨v, hv, -, rfl⟩ | ⟨c, rfl, -⟩
  · exact .inr ⟨v, hv, rfl⟩
  · exact .inl ⟨c, s.raise_faultsTo c⟩

/-- Settles O40: LOAD empties the latch, `OUT` alone writes and reads it, and read-back hands it over. -/
theorem outputLatchIsOuts : Obligations.OutputLatchIsOuts := by
  refine ⟨fun c image input s h => ?_, fun m0 s t => execOut_latch, fun i s t x hi h => exec_withLatch hi h x,
    fun s hs => ?_⟩
  · obtain ⟨-, -, -, -, rfl⟩ := (load_eq_some_iff c image input s).mp h
    rfl
  · rw [State.readBack, hs]

end Sys2Proof.Machine
end

section
/-!
`LOAD` (R190): the state it gives is the reset table's (R35), and what it refuses is what does not fit (D3, D19).
-/
namespace Sys2Proof.Machine

/-- A loaded cell holds the image's element. -/
theorem lookup_ofImage_zero {image : List Cell} {k : Nat} (hk : k < image.length) :
    Memory.lookup (Memory.ofImage 0 image) k = image[k] := by
  have h := Memory.lookup_ofImage image 0 k
  rwa [Nat.zero_add, List.getD_eq_getElem _ _ hk] at h

/-- Settles O9: the fields are those of the loaded state, and the listed memory reads as the image. -/
theorem loadGivesTheResetTable : Obligations.LoadGivesTheResetTable := by
  intro c image input s h
  obtain ⟨-, -, -, -, rfl⟩ := (load_eq_some_iff c image input s).mp h
  refine ⟨rfl, rfl, fun k hk => lookup_ofImage_zero hk, ?_, rfl, rfl, rfl, rfl, rfl, rfl⟩
  refine List.ext_getElem (by simp [State.image]) fun k _ hk => ?_
  simpa [State.image] using lookup_ofImage_zero hk

/-- A load is refused exactly if one of its four tests fails. -/
theorem load_eq_none_iff (c : Config) (image : List Int) (input : Option Int) :
    load c image input = none ↔
      ¬ (c.wf = true ∧ c.width.lengthFits image.length = true ∧ (∀ v ∈ image, c.width.inCell v = true) ∧
        ∀ v, input = some v → c.width.inCell v = true) := by
  constructor
  · rintro hnone ⟨hwf, hlen, himage, hinput⟩
    exact nomatch hnone.symm.trans ((load_eq_some_iff c image input _).mpr ⟨hwf, hlen, himage, hinput, rfl⟩)
  · intro h
    cases hl : load c image input with
    | none => rfl
    | some s =>
      obtain ⟨hwf, hlen, himage, hinput, -⟩ := (load_eq_some_iff c image input s).mp hl
      exact absurd ⟨hwf, hlen, himage, hinput⟩ h

/-- Outside the cell range of a finite width (R7). -/
theorem not_inCell_bits_iff (b : Nat) (v : Int) :
    ¬ (Width.bits b).inCell v = true ↔ v < -2 ^ (b - 1) ∨ 2 ^ (b - 1) - 1 < v := by
  rw [inCell_bits_iff, Nat.pow_eq, Nat.cast_pow, Nat.cast_ofNat]
  omega

/-- Past the bound on the memory length of a finite width (R23). -/
theorem not_lengthFits_bits_iff (b n : Nat) : ¬ (Width.bits b).lengthFits n = true ↔ 2 ^ (b - 1) < n + 4 := by
  simp [Width.lengthFits]

/-- Settles O10: at a width of R7 the four tests are the length's, the image's and the input's; at `W = INF` all pass. -/
theorem loadRefusesExactlyWhatDoesNotFit : Obligations.LoadRefusesExactlyWhatDoesNotFit := by
  constructor
  · intro b l st image input hb
    have hwf : Config.wf ⟨.bits b, l, st⟩ = true := decide_eq_true hb
    simp only [load_eq_none_iff, hwf, true_and, not_and_or, not_forall, exists_prop, not_lengthFits_bits_iff,
      not_inCell_bits_iff]
  · intro l st image input
    rw [Ne, load_eq_none_iff, not_not]
    exact ⟨rfl, rfl, fun _ _ => rfl, fun _ _ => rfl⟩

end Sys2Proof.Machine
end

section
/-!
Configurations that admit more (D1, D4, D5): what completes under one completes alike under every one that admits more.
-/
namespace Sys2Proof

/-- `EXTENDED` has every instruction. -/
theorem Instr.wf_extended (i : Instr) : i.wf .extended = true := by
  cases i <;> rfl

/-- What `MINIMAL` has, every level has. -/
theorem Instr.wf_of_wf_minimal {i : Instr} (h : i.wf .minimal = true) (l : IsaLevel) : i.wf l = true := by
  cases l with
  | minimal => exact h
  | extended => exact i.wf_extended

/-- A level with no opcode fewer decodes the same words to the same instructions. -/
theorem decode_of_wider_level {l l' : IsaLevel} (hl : l = .minimal ∨ l' = .extended) {w : Int} {i : Instr}
    (h : decode l w = .ok i) : decode l' w = .ok i := by
  obtain ⟨hwf, hword⟩ := (decode_eq_ok_iff l w i).mp h
  refine (decode_eq_ok_iff l' w i).mpr ⟨?_, hword⟩
  rcases hl with rfl | rfl
  · exact Instr.wf_of_wf_minimal hwf l'
  · exact i.wf_extended

end Sys2Proof

namespace Sys2Proof.Machine

variable {s t : State} {m0 m1 : Mode} {c' : Config}

/-- The state under another configuration. -/
def State.withConfig (s : State) (c' : Config) : State := { s with cfg := c' }

/-- A three-operand form that completes does so under every configuration where its operation has the same results. -/
theorem State.computeStore_withConfig {f f' : Int → Int → Except FaultCause Int}
    (hf : ∀ a b r, f a b = .ok r → f' a b = .ok r) (h : s.computeStore m0 m1 f = .next t) (ht : t.status ≠ .faulted) :
    (s.withConfig c').computeStore m0 m1 f' = .next (t.withConfig c') := by
  rcases State.computeStore_cases h with ⟨a, b, dest, r, h0, h1, h2, hr, hd, rfl⟩ | ⟨c, rfl, -⟩
  · exact State.computeStore_completes (s := s.withConfig c') h0 h1 h2 (hf a b r hr) hd
  · exact absurd rfl ht

/-- A jump that completes does so under every configuration. -/
theorem State.branch_withConfig {taken : Int → Bool} (h : s.branch m0 m1 taken = .next t) (ht : t.status ≠ .faulted) :
    (s.withConfig c').branch m0 m1 taken = .next (t.withConfig c') := by
  rcases State.branch_cases h with ⟨a, target, h0, h1, rfl⟩ | ⟨c, rfl, -⟩
  · exact State.branch_completes (s := s.withConfig c') h0 h1
  · exact absurd rfl ht

/-- An `IN` that completes does so under every configuration. -/
theorem execIn_withConfig (h : execIn s = .next t) (ht : t.status ≠ .faulted) :
    execIn (s.withConfig c') = .next (t.withConfig c') := by
  rcases execIn_cases h with ⟨dest, x, h0, hx, hd, rfl⟩ | ⟨c, rfl, -⟩
  · exact execIn_completes (s := s.withConfig c') h0 hx hd
  · exact absurd rfl ht

/-- An `OUT` that completes does so under every configuration with no output check more. -/
theorem execOut_withConfig (hcheck : s.cfg.strictSingleOutput = true ∨ c'.strictSingleOutput = false)
    (h : execOut m0 s = .next t) (ht : t.status ≠ .faulted) :
    execOut m0 (s.withConfig c') = .next (t.withConfig c') := by
  rcases execOut_cases h with ⟨v, h0, hpass, rfl⟩ | ⟨c, rfl, -⟩
  · refine execOut_completes (s := s.withConfig c') h0 ?_
    rcases hcheck with hstrict | hoff
    · have hnone : s.out = none := by simpa using not_and.mp hpass hstrict
      simp [State.withConfig, hnone]
    · simp [State.withConfig, hoff]
  · exact absurd rfl ht

/-- A result that passes the range check passes it at every width with no cell value fewer. -/
theorem State.checkedResult_withConfig (hcell : ∀ v, s.cfg.width.inCell v = true → c'.width.inCell v = true) {o r v : Int}
    (h : s.checkedResult o r = .ok v) : (s.withConfig c').checkedResult o r = .ok v := by
  obtain ⟨hr, rfl⟩ := (s.checkedResult_eq_ok_iff o r v).mp h
  exact ((s.withConfig c').checkedResult_eq_ok_iff o v v).mpr ⟨hcell v hr, rfl⟩

/-- An instruction that does not fault does the same under every configuration that admits more. -/
theorem exec_withConfig (hc : s.cfg.Within c') {i : Instr} (h : exec i s = .next t) (ht : t.status ≠ .faulted) :
    exec i (s.withConfig c') = .next (t.withConfig c') := by
  obtain ⟨-, hcheck, hcell⟩ := hc
  cases i with
  | hlt =>
    obtain rfl : { s with status := .halted } = t := Host.Outcome.next.inj h
    rfl
  | add m0 m1 | mul m0 m1 =>
    exact State.computeStore_withConfig (fun a b r => State.checkedResult_withConfig hcell) h ht
  | lt m0 m1 | eq m0 m1 => exact State.computeStore_withConfig (fun a b r hr => hr) h ht
  | jnz m0 m1 | jz m0 m1 => exact State.branch_withConfig h ht
  | inp => exact execIn_withConfig h ht
  | out m0 => exact execOut_withConfig hcheck h ht

/-- Settles O44: a step that does not fault executes an instruction, which the wider level decodes too, or is none. -/
theorem widerConfigurationTakesTheSameStep : Obligations.WiderConfigurationTakesTheSameStep := by
  intro s t c' hc h ht
  rcases step_cases h with ⟨hn, rfl⟩ | ⟨-, -, rfl⟩ | ⟨w, d, -, -, -, rfl⟩ | ⟨w, i, hr, hw, hd, he⟩
  · exact step_of_not_running hn
  · exact absurd rfl ht
  · exact absurd rfl ht
  · have hd' : decode c'.level w = .ok i := decode_of_wider_level hc.1 hd
    exact (step_of_decode (s := s.withConfig c') hr hw hd').trans (exec_withConfig hc he ht)

end Sys2Proof.Machine
end

section
/-!
The run loop (R101): one equation per case, and what a run that ends inherits from its steps.
-/
namespace Sys2Proof.Machine

variable {s t : State} {k : Nat}

/-! ### One step of the loop -/

/-- A run from a terminal state has ended there, whatever number of steps is allowed. -/
theorem runToEnd_of_not_running (hs : s.status ≠ .running) (k : Nat) : runToEnd k s = some s := by
  cases k <;> simp [runToEnd, hs]

/-- Without a step a running machine has no end. -/
theorem runToEnd_zero_of_running (hr : s.status = .running) : runToEnd 0 s = none := by
  simp [runToEnd, hr]

/-- A running machine goes on from the state its step answers. -/
theorem runToEnd_succ_of_step (hr : s.status = .running) (h : step s = .next t) :
    runToEnd (k + 1) s = runToEnd k t := by
  simp [runToEnd, hr, nextState, h]

/-! ### What a run that ends inherits -/

/-- Induction over a run that ends in `t`, from its end back to its start. -/
theorem runToEnd_induction {motive : Nat → State → Prop} (ended : t.status ≠ .running → ∀ k, motive k t)
    (goes_on : ∀ k s u, s.status = .running → step s = .next u → runToEnd k u = some t → motive k u → motive (k + 1) s)
    (h : runToEnd k s = some t) : motive k s := by
  have of_not_running : ∀ {k s}, s.status ≠ .running → runToEnd k s = some t → motive k s := by
    intro k s hs h
    rw [runToEnd_of_not_running hs, Option.some.injEq] at h
    exact h ▸ ended (h ▸ hs) k
  induction k generalizing s with
  | zero =>
    by_cases hr : s.status = .running
    · exact nomatch (runToEnd_zero_of_running hr).symm.trans h
    · exact of_not_running hr h
  | succ k ih =>
    by_cases hr : s.status = .running
    · obtain ⟨u, hu⟩ := exists_step_eq_next hr
      have hrest : runToEnd k u = some t := (runToEnd_succ_of_step hr hu).symm.trans h
      exact goes_on k s u hr hu hrest (ih hrest)
    · exact of_not_running hr h

/-- A run ends in a terminal state. -/
theorem status_of_runToEnd (h : runToEnd k s = some t) : t.status ≠ .running :=
  runToEnd_induction (motive := fun _ _ => t.status ≠ .running) (fun ht _ => ht) (fun _ _ _ _ _ _ ht => ht) h

/-- What every step keeps holds at the end of a run. -/
theorem runToEnd_keeps {P : State → Prop} (hstep : ∀ s t, P s → step s = .next t → P t) (h : runToEnd k s = some t) :
    P s → P t :=
  runToEnd_induction (motive := fun _ s => P s → P t) (fun _ _ ht => ht)
    (fun _ s u _ hu _ ih hs => ih (hstep s u hs hu)) h

/-- A step keeps what no run may change (R24, R28, R32). -/
theorem step_frame (h : step s = .next t) : t.cfg = s.cfg ∧ t.memLen = s.memLen ∧ t.inp = s.inp := by
  rcases step_cases h with ⟨-, rfl⟩ | ⟨-, -, rfl⟩ | ⟨w, d, -, -, -, rfl⟩ | ⟨w, i, -, -, -, he⟩
  · exact ⟨rfl, rfl, rfl⟩
  · exact ⟨rfl, rfl, rfl⟩
  · exact ⟨rfl, rfl, rfl⟩
  · obtain ⟨hcfg, hlen, hinp, -⟩ := frameOfEveryInstruction i s t he
    exact ⟨hcfg, hlen, hinp⟩

/-- A run keeps what no step may change. -/
theorem runToEnd_frame (h : runToEnd k s = some t) : t.cfg = s.cfg ∧ t.memLen = s.memLen ∧ t.inp = s.inp := by
  refine runToEnd_keeps (P := fun u => u.cfg = s.cfg ∧ u.memLen = s.memLen ∧ u.inp = s.inp) ?_ h ⟨rfl, rfl, rfl⟩
  rintro u v ⟨hcfg, hlen, hinp⟩ huv
  obtain ⟨hcfg', hlen', hinp'⟩ := step_frame huv
  exact ⟨hcfg'.trans hcfg, hlen'.trans hlen, hinp'.trans hinp⟩

/-- In a terminal state that meets the invariant a defect is recorded exactly in `Faulted`, and points at `pc`. -/
theorem State.Inv.terminal_cases (hi : s.Inv) (hs : s.status ≠ .running) :
    s.status = .halted ∧ s.fault = none ∨ s.status = .faulted ∧ ∃ r, s.fault = some r ∧ r.fpc = s.pc := by
  cases hstatus : s.status with
  | running => exact absurd hstatus hs
  | halted => exact .inl ⟨rfl, hi.faultNone (by simp [hstatus])⟩
  | faulted =>
    obtain ⟨c, hc⟩ := hi.faultSome hstatus
    exact .inr ⟨rfl, _, hc, rfl⟩

/-- Settles O46: the load meets the invariant, each step keeps it, and a run ends in a terminal state. -/
theorem loadedRunsEndHaltedOrFaulted : Obligations.LoadedRunsEndHaltedOrFaulted := by
  intro c image input k s t hload hrun
  have hi : t.Inv := runToEnd_keeps stepKeepsTheInvariant hrun (loadMeetsTheInvariant c image input s hload)
  obtain ⟨hcfg, hlen, hinp⟩ := runToEnd_frame hrun
  obtain ⟨hcfg', hlen', -, -, -, -, hinp', -⟩ := loadGivesTheResetTable c image input s hload
  exact ⟨hi, hcfg.trans hcfg', hlen.trans hlen', hinp.trans hinp', hi.terminal_cases (status_of_runToEnd hrun)⟩

/-! ### The number of steps allowed -/

/-- A run that ends within `k` steps ends alike within every larger number. -/
theorem runToEnd_mono (h : runToEnd k s = some t) : ∀ j, k ≤ j → runToEnd j s = some t := by
  refine runToEnd_induction (motive := fun k s => ∀ j, k ≤ j → runToEnd j s = some t) ?_ ?_ h
  · exact fun ht _ j _ => runToEnd_of_not_running ht j
  · intro k s u hr hu _ ih j hj
    obtain ⟨j, rfl⟩ := Nat.exists_eq_add_of_lt hj
    rw [runToEnd_succ_of_step hr hu]
    exact ih _ (Nat.le_add_right k j)

/-- Settles O47: of two numbers of steps the larger one gives both ends. -/
theorem endOfARunDoesNotDependOnTheStepLimit : Obligations.EndOfARunDoesNotDependOnTheStepLimit := by
  intro k j s t u hk
  refine ⟨runToEnd_mono hk j, fun hj => Option.some.inj ?_⟩
  rcases le_total k j with hkj | hjk
  · exact hj.symm.trans (runToEnd_mono hk j hkj)
  · exact (runToEnd_mono hj k hjk).symm.trans hk

/-- Settles O45: no step of a run that halts faults, so each is the same step under the wider configuration. -/
theorem widerConfigurationRefinesHaltingRuns : Obligations.WiderConfigurationRefinesHaltingRuns := by
  intro k s t c' hc hrun ht
  refine runToEnd_induction
    (motive := fun k s => s.cfg.Within c' → runToEnd k (s.withConfig c') = some (t.withConfig c')) ?_ ?_ hrun hc
  · exact fun hend k _ => runToEnd_of_not_running (s := t.withConfig c') hend k
  · intro k s u hr hu hrest ih hc
    have hfault : u.status ≠ .faulted := by
      intro hf
      rw [runToEnd_of_not_running (by simp [hf]), Option.some.injEq] at hrest
      exact absurd (ht.symm.trans (hrest ▸ hf)) (by decide)
    have hstep := widerConfigurationTakesTheSameStep s u c' hc hu hfault
    exact (runToEnd_succ_of_step (s := s.withConfig c') hr hstep).trans (ih ((step_frame hu).1 ▸ hc))

/-! ### A run without end -/

/-- A running machine that steps to itself has no end. -/
theorem runToEnd_of_step_self (hr : s.status = .running) (h : step s = .next s) (k : Nat) : runToEnd k s = none := by
  induction k with
  | zero => exact runToEnd_zero_of_running hr
  | succ k ih => rw [runToEnd_succ_of_step hr h, ih]

/-- Settles O48: the taken jump sets `pc` to itself, so the step answers the same state. -/
theorem jumpToItselfNeverEnds : Obligations.JumpToItselfNeverEnds := by
  intro s w m0 m1 a hr hw h0 h1 hjump
  have hstep : step s = .next s := by
    rcases hjump with ⟨hd, ha⟩ | ⟨hd, ha⟩
    · exact (step_of_decode hr hw hd).trans ((jnzBranchesOnNonzero s m0 m1 a s.pc h0 h1).1 ha)
    · exact (step_of_decode hr hw hd).trans ((jzBranchesOnZero s m0 m1 a s.pc h0 h1).1 ha)
  exact ⟨hstep, runToEnd_of_step_self hr hstep⟩

end Sys2Proof.Machine
end

section
/-!
The word of bits placed where the next step fetches (log entry 8).
-/
namespace Sys2Proof.Machine

/-- Placing cells from address `a` on changes memory alone, does not shrink it, and leaves what lies below `a`. -/
theorem State.placeCells_frame (s : State) (a : Nat) (vs : List Cell) :
    (s.placeCells a vs).cfg = s.cfg ∧ (s.placeCells a vs).status = s.status ∧ (s.placeCells a vs).pc = s.pc ∧
      s.memLen ≤ (s.placeCells a vs).memLen ∧
      ∀ b < a, Memory.lookup (s.placeCells a vs).mem b = Memory.lookup s.mem b := by
  induction vs generalizing s a with
  | nil => exact ⟨rfl, rfl, rfl, le_rfl, fun _ _ => rfl⟩
  | cons v rest ih =>
    obtain ⟨hcfg, hstatus, hpc, hlen, hbelow⟩ :=
      ih { s with mem := Memory.put s.mem a v, memLen := max s.memLen (a + 1) } (a + 1)
    refine ⟨hcfg, hstatus, hpc, (le_max_left _ _).trans hlen, fun b hb => ?_⟩
    rw [State.placeCells, hbelow b (by omega), Memory.lookup_put, if_neg hb.ne]

/-- The first cell placed is a cell of the memory afterwards, and holds what was placed there. -/
theorem State.placeCells_holds (s : State) (a : Nat) (v : Int) (rest : List Cell) :
    (s.placeCells a (v :: rest)).Holds a v := by
  obtain ⟨-, -, -, hlen, hbelow⟩ :=
    State.placeCells_frame { s with mem := Memory.put s.mem a v, memLen := max s.memLen (a + 1) } (a + 1) rest
  refine ⟨⟨Int.natCast_nonneg a, ?_⟩, ?_⟩
  · have hmax : a + 1 ≤ max s.memLen (a + 1) := le_max_right _ _
    exact Int.ofNat_lt.mpr (hmax.trans hlen)
  · rw [State.cellAt, Int.toNat_natCast]
    exact (hbelow a a.lt_succ_self).trans (by simp [Memory.lookup_put])

/-- A state with a word placed is running, at a cell that holds the word's first cell, under the same configuration. -/
theorem State.withFetchWord_ready (s : State) (nbits w : Nat) :
    (s.withFetchWord nbits w).status = .running ∧ (s.withFetchWord nbits w).cfg = s.cfg ∧
      (s.withFetchWord nbits w).Holds (s.withFetchWord nbits w).pc (cellOfBits s.cfg.width.layoutBits 0 w) := by
  have hpos : 0 ≤ (if 0 ≤ s.pc then s.pc else 0) := by split <;> omega
  simp only [State.withFetchWord, State.placeInstruction]
  generalize (if 0 ≤ s.pc then s.pc else 0) = p at hpos ⊢
  obtain ⟨n, rfl⟩ := Int.eq_ofNat_of_zero_le hpos
  rw [Int.toNat_natCast]
  obtain ⟨hcfg, hstatus, hpc, -, -⟩ := State.placeCells_frame { s with pc := n, status := .running, fault := none } n
    [cellOfBits s.cfg.width.layoutBits 0 w, cellOfBits s.cfg.width.layoutBits 1 w,
     cellOfBits s.cfg.width.layoutBits 2 w, cellOfBits s.cfg.width.layoutBits 3 w]
  refine ⟨hstatus, hcfg, ?_⟩
  rw [hpc]
  exact State.placeCells_holds _ n _ _

/-- The table's decoder is the machine's at `EXTENDED`, asked for the first 64 bits. -/
theorem decodeTableWord_eq_some_iff (nbits w : Nat) (i : Instr) :
    decodeTableWord nbits w = some i ↔ decode .extended (cellOfBits 64 0 w) = .ok i := by
  unfold decodeTableWord
  cases decode .extended (cellOfBits 64 0 w) <;> simp

/-- Settles O49: the word placed is the one the table's decoder was asked, at the width and level of the default. -/
theorem fetchWordRunsTheTableInstruction : Obligations.FetchWordRunsTheTableInstruction := by
  intro s nbits w i hcfg hd
  obtain ⟨hr, hcfg', hw⟩ := s.withFetchWord_ready nbits w
  rw [hcfg] at hw hcfg'
  refine step_of_decode hr hw ?_
  rw [hcfg']
  exact (decodeTableWord_eq_some_iff nbits w i).mp hd

end Sys2Proof.Machine
end
